-- ==== Sys2Proof/Word.lean ====
section
/-! DEFINITION. The two sizes of data misa has (spec/00_scope.md rule R6; spec/10_state.md rule R11;
spec/20_memory.md rule R30). -/

namespace Sys2Proof

/-- R6, R11: a `Word`, 16 bits: register contents, addresses, immediates, memory words. -/
abbrev Word := BitVec 16

/-- R6, R30: a `Byte`, the addressable unit of memory and of the instruction stream. -/
abbrev Byte := BitVec 8

end Sys2Proof
end

