-- ==== Sys2Proof/Config.lean ====
section
/-! DEFINITION. The quantities spec/00_scope.md rule R3 fixes or gives a default, and the one value the
model names where the spec gives none. The rules leave no instruction's result open, so there is no
opaque constant here. -/

namespace Sys2Proof.Config

/-- R3: `MEM_BYTES` at its default, the whole 16-bit address space (log entry 6). -/
def memBytes : Nat := 65536

/-- What a byte of memory that is not listed reads as. DESIGN CHOICE, unsafe (log entry 2): the spec
gives no launch value for memory (R24, R140). -/
def unlistedByte : Byte := 0

/-- The bytes of the longest instruction: two opcode bytes and two immediate words (R57). -/
def longestInstr : Nat := 6

end Sys2Proof.Config
end

