-- ==== Sys2Proof/Syntax.lean ====
section
/-! DEFINITION. The instructions of misa as syntax: spec/00_scope.md rule R2, one constructor for each row
of spec/opcode_table.json. An immediate is not part of an instruction (spec/30_encoding.md rule R56): it
is a memory word an operand reaches through R7. -/

namespace Sys2Proof

/-- The eight registers (R10, R12). R7 is the instruction pointer (R14). -/
inductive Reg where
  | r0 | r1 | r2 | r3 | r4 | r5 | r6 | r7
  deriving DecidableEq, Repr

/-- The four addressing modes (R55). -/
inductive Mode where
  /-- `00`, written `Rn` (R73). -/
  | direct
  /-- `01`, written `@Rn` (R74). -/
  | indirect
  /-- `10`, written `@Rn+`; on R7 it is the immediate mode `#k` (R75, R77). -/
  | postinc
  /-- `11`, written `@-Rn` (R76). -/
  | predec
  deriving DecidableEq, Repr

/-- An operand is a pair of a mode and a register (R72). Every pair is legal (R62). -/
structure Operand where
  mode : Mode
  reg : Reg
  deriving DecidableEq, Repr

/-- The seventeen instructions (R2). A double-operand instruction is written destination first (R63). -/
inductive Instr where
  | inc (op : Operand)
  | dec (op : Operand)
  | neg (op : Operand)
  | not (op : Operand)
  | lsh (op : Operand)
  | rsh (op : Operand)
  | mov (dst src : Operand)
  | cmoveq (dst src : Operand)
  | cmovlt (dst src : Operand)
  | cmovgt (dst src : Operand)
  | call (dst src : Operand)
  | cmp (dst src : Operand)
  | add (dst src : Operand)
  | sub (dst src : Operand)
  | and (dst src : Operand)
  | or (dst src : Operand)
  | xor (dst src : Operand)
  deriving DecidableEq, Repr

/-- The operands of an instruction, in the order in which they are evaluated: source first (R80). -/
def Instr.operands : Instr → List Operand
  | .inc op => [op]
  | .dec op => [op]
  | .neg op => [op]
  | .not op => [op]
  | .lsh op => [op]
  | .rsh op => [op]
  | .mov dst src => [src, dst]
  | .cmoveq dst src => [src, dst]
  | .cmovlt dst src => [src, dst]
  | .cmovgt dst src => [src, dst]
  | .call dst src => [src, dst]
  | .cmp dst src => [src, dst]
  | .add dst src => [src, dst]
  | .sub dst src => [src, dst]
  | .and dst src => [src, dst]
  | .or dst src => [src, dst]
  | .xor dst src => [src, dst]

end Sys2Proof
end

