-- ==== Sys2Proof/Machine/State.lean ====
section
/-! DEFINITION. The whole architectural state of misa (spec/10_state.md rules R10 to R24), the reasons a
step can stop, and the state after reset. -/

namespace Sys2Proof.Machine

/-- R10, R11: the eight registers, each a 16-bit word; `r7` is the instruction pointer (R14). -/
structure Registers where
  r0 : Word
  r1 : Word
  r2 : Word
  r3 : Word
  r4 : Word
  r5 : Word
  r6 : Word
  r7 : Word
  deriving DecidableEq, Repr

/-- R22, R30: the one memory, code and data alike, as the bytes that differ from what an unlisted address
reads as, in rising order of their addresses (`Memory.wf` in Ops.lean says so). -/
structure Memory where
  cells : List Host.Cell
  deriving DecidableEq, Repr

/-- R10, R17, R22: the state. There is nothing else: no other register file (R21), no control or status
register (R20), no hidden state (R23). -/
structure State where
  /-- R0 to R7 (R10). -/
  regs : Registers
  /-- `Z`, the zero flag (R17). -/
  z : Bool
  /-- `C`, the carry flag (R17). -/
  c : Bool
  /-- `mem` (R22). -/
  mem : Memory
  deriving DecidableEq, Repr

/-- R121, R122: the model's faults; there is exactly one. -/
inductive Fault where
  /-- R60, R121, R125: the first byte fetched, `b0`, is in `0xEC` to `0xFF`; `addr` is the address it was
  fetched from. Raised by `step`; safe (log entry 19). -/
  | illegalInstruction (b0 : Byte) (addr : Word)
  deriving DecidableEq, Repr

/-- The model's refusals. -/
inductive Refusal where
  /-- The instruction has no meaning in the model yet. Raised by no arm of `exec`: every instruction has its
  meaning. Safe. -/
  | notModelled (mnemonic : String)
  /-- R32: in a configuration with `memBytes` bytes of memory, fewer than 65536, the step would access
  `addr`, which is at or above `memBytes`. Raised by `stepIn` only, never by `step`; safe. -/
  | outsideMemory (memBytes : Nat) (addr : Word)
  deriving DecidableEq, Repr

/-- The machine right after reset. The spec gives no reset and no launch value for any piece of state (R24,
R140); the values here are the model's own. DESIGN CHOICE, unsafe (log entries 1 and 2): no claim may rest
on them. The launch of R140, with every value a parameter, is `launch` in Machine/Launch.lean. -/
def State.reset : State where
  regs := { r0 := 0, r1 := 0, r2 := 0, r3 := 0, r4 := 0, r5 := 0, r6 := 0, r7 := 0 }
  z := false
  c := false
  mem := { cells := [] }

end Sys2Proof.Machine
end

