-- ==== Sys2Proof/Machine/Ops.lean ====
section
/-! DEFINITION. The named operations over registers and memory: the primitives of spec/00_scope.md rule R7,
with the byte order of spec/20_memory.md rule R33 decided here once; and the model fault. -/

namespace Sys2Proof.Machine

/-! ## Registers (R7, R10, R11) -/

/-- R7: `x[i]`. -/
def Registers.get (rs : Registers) : Reg → Word
  | .r0 => rs.r0
  | .r1 => rs.r1
  | .r2 => rs.r2
  | .r3 => rs.r3
  | .r4 => rs.r4
  | .r5 => rs.r5
  | .r6 => rs.r6
  | .r7 => rs.r7

/-- R7: `x[i] <- v`. -/
def Registers.set (rs : Registers) (r : Reg) (v : Word) : Registers :=
  match r with
  | .r0 => { rs with r0 := v }
  | .r1 => { rs with r1 := v }
  | .r2 => { rs with r2 := v }
  | .r3 => { rs with r3 := v }
  | .r4 => { rs with r4 := v }
  | .r5 => { rs with r5 := v }
  | .r6 => { rs with r6 := v }
  | .r7 => { rs with r7 := v }

/-- R7: `x[i]` in a state. No register is hardwired to a value (R10). -/
def State.getReg (s : State) (r : Reg) : Word := s.regs.get r

/-- R7: `x[i] <- v` in a state. -/
def State.setReg (s : State) (r : Reg) (v : Word) : State := { s with regs := s.regs.set r v }

/-- R7, R14: `pc` is a synonym of `x[7]`. -/
def State.pc (s : State) : Word := s.getReg .r7

/-- R7: `pc <- t`. -/
def State.setPc (s : State) (t : Word) : State := s.setReg .r7 t

/-- The state with another memory. -/
def State.setMem (s : State) (m : Memory) : State := { s with mem := m }

/-! ## Memory (R22, R30, R40) -/

/-- The byte listed at an address, if one is. -/
def findByte : List Host.Cell → Nat → Option Byte
  | [], _ => none
  | (k, v) :: rest, a => if k = a then some v else findByte rest a

/-- Put a byte at an address of a rising list, keeping it rising and listing no byte that an unlisted
address reads as. -/
def putByte : List Host.Cell → Nat → Byte → List Host.Cell
  | [], a, b => if b = Config.unlistedByte then [] else [(a, b)]
  | (k, v) :: rest, a, b =>
    if a < k then
      if b = Config.unlistedByte then (k, v) :: rest else (a, b) :: (k, v) :: rest
    else if a = k then
      if b = Config.unlistedByte then rest else (a, b) :: rest
    else (k, v) :: putByte rest a b

/-- R7, R40: `MemRead(a, 1)`; a read has no side effect. -/
def Memory.read (m : Memory) (a : Word) : Byte :=
  (findByte m.cells a.toNat).getD Config.unlistedByte

/-- `mem[a] <- b`. No instruction stores a single byte (R38); the word write below is made of two of these. -/
def Memory.write (m : Memory) (a : Word) (b : Byte) : Memory :=
  { cells := putByte m.cells a.toNat b }

/-- R33, R37: `MemRead(a, 2)`, the little-endian word at `a`, at any alignment (R36). -/
def Memory.readWord (m : Memory) (a : Word) : Word :=
  m.read (a + 1#16) ++ m.read a

/-- R33, R37: `MemWrite(a, 2, v)`. -/
def Memory.writeWord (m : Memory) (a v : Word) : Memory :=
  (m.write a (v.extractLsb' 0 8)).write (a + 1#16) (v.extractLsb' 8 8)

/-- Bytes at consecutive addresses from `a`, wrapping at the top (R37). -/
def Memory.writeBytes (m : Memory) (a : Word) : List Byte → Memory
  | [] => m
  | b :: bs => Memory.writeBytes (m.write a b) (a + 1#16) bs

/-- The canonical form of a list of cells: addresses rise strictly from `low` and stay below `MEM_BYTES`,
and no cell holds what an unlisted address reads as. -/
def cellsWf : Nat → List Host.Cell → Bool
  | _, [] => true
  | low, (k, v) :: rest =>
    decide (low ≤ k) && decide (k < Config.memBytes) && decide (v ≠ Config.unlistedByte) && cellsWf (k + 1) rest

/-- The memory is in its canonical form, so that equal memories are equal data. -/
def Memory.wf (m : Memory) : Bool := cellsWf 0 m.cells

/-! ## Fetch (R71) -/

/-- R71: `Fetch8()`: the byte at `x[7]`, and `x[7]` one higher modulo `0x10000`. -/
def fetch8 (s : State) : Byte × State :=
  (s.mem.read s.pc, s.setPc (s.pc + 1#16))

/-! ## The model fault (R121, R125)

misa has no exception to take and none to return from: no trap entry, no saved state, no vector, no trap
return (R120, R125, R126). What an unassigned opcode does is the one shared operation below. -/

/-- R121: `raise IllegalInstruction(b0)`, in the state that the fetch of `b0` left: the address recorded is
`wrap16(x[7] - 1)`. The run ends; control goes nowhere (R125). -/
def raiseIllegalInstruction (b0 : Byte) (s : State) : Host.Outcome State Fault Refusal :=
  .fault (.illegalInstruction b0 (s.pc - 1#16))

end Sys2Proof.Machine
end

