-- ==== Sys2Proof/Machine/Operands.lean ====
section
/-! DEFINITION. Operand evaluation, load and store: spec/40_operands.md rules R72 to R78 and R83. R7 is an
operand register like any other (R83); the immediate is postincrement on R7 (R77). -/

namespace Sys2Proof.Machine

/-- R72: an operand's location. -/
inductive Loc where
  /-- `Reg(i)`, the register itself. -/
  | reg (r : Reg)
  /-- `Mem(a)`, the memory word at address `a`. -/
  | mem (a : Word)
  deriving DecidableEq, Repr

/-- R72 to R76: `Eval(m, r)`, the operand's location and the state with the mode's modification of the
register applied, before any access (R84). It accesses no memory. -/
def evalOperand (o : Operand) (s : State) : Loc × State :=
  match o.mode with
  | .direct => (.reg o.reg, s)
  | .indirect => (.mem (s.getReg o.reg), s)
  | .postinc => (.mem (s.getReg o.reg), s.setReg o.reg (s.getReg o.reg + 2#16))
  | .predec => (.mem (s.getReg o.reg - 2#16), s.setReg o.reg (s.getReg o.reg - 2#16))

/-- R78: `Load(l)`, always 16 bits. -/
def load (l : Loc) (s : State) : Word :=
  match l with
  | .reg r => s.getReg r
  | .mem a => s.mem.readWord a

/-- R78: `Store(l, v)`, always 16 bits; it touches no flag and no other register. -/
def store (l : Loc) (v : Word) (s : State) : State :=
  match l with
  | .reg r => s.setReg r v
  | .mem a => s.setMem (s.mem.writeWord a v)

/-- R80: the first half of every double-operand instruction: the source is evaluated and loaded before
anything else. It gives the source's value and the state after its evaluation. -/
def evalSource (src : Operand) (s : State) : Word × State :=
  let e := evalOperand src s
  (load e.1 e.2, e.2)

end Sys2Proof.Machine
end

