-- ==== Sys2Proof/Machine/Flags.lean ====
section
/-! DEFINITION. The flag rule (spec/40_operands.md rule R82) and the shapes of execution that all seventeen
instructions share (rules R79 to R81). A result is the unbounded integer `n` of R82, narrowed once at the
end (log entries 10 to 17 name what of it is the spec's own decision). -/

namespace Sys2Proof.Machine

/-- R6: `wrap16(n)`, `n` modulo `0x10000`. -/
def wrap16 (n : Int) : Word := BitVec.ofInt 16 n

/-- R82: `Z` is set exactly when the 16 bits of the result are all zero. -/
def zeroFlag (n : Int) : Bool := wrap16 n == 0#16

/-- R82: `C` is set exactly when the unbounded result is outside `0 .. 0xFFFF`. -/
def carryFlag (n : Int) : Bool := decide (n < 0) || decide (0xFFFF < n)

/-- R82: `SetFlags(n)`. -/
def setFlags (n : Int) (s : State) : State := { s with z := zeroFlag n, c := carryFlag n }

/-- R79: the shape of every format S instruction, with `f` its function from the operand's value to the
unbounded result: evaluate once, load, compute, store to the same location, set the flags. -/
def modifyOperand (f : Word → Int) (o : Operand) (s : State) : State :=
  let e := evalOperand o s
  let n := f (load e.1 e.2)
  setFlags n (store e.1 (wrap16 n) e.2)

/-- R81: the second half of MOV and of a taken CMOVxx: the destination is evaluated, the value stored, the
flags set from it; the destination's old value is not read. -/
def moveInto (dst : Operand) (v : Word) (s : State) : State :=
  let e := evalOperand dst s
  setFlags v.toNat (store e.1 v e.2)

/-- R81, R104: MOV under a condition. The source is always evaluated and loaded; when the condition is false
the destination is not evaluated and both flags keep their values. -/
def moveIf (cond : Bool) (dst src : Operand) (s : State) : State :=
  let v := evalSource src s
  if cond then moveInto dst v.1 v.2 else v.2

/-- R81: CALL. The value stored is `x[7]` as it stands after both operands have been evaluated (R105). -/
def callInto (dst src : Operand) (s : State) : State :=
  let v := evalSource src s
  let e := evalOperand dst v.2
  setFlags v.1.toNat ((store e.1 e.2.pc e.2).setPc v.1)

/-- R81: CMP's shape: destination and source are loaded, only the flags are written. -/
def compareOperands (g : Word → Word → Int) (dst src : Operand) (s : State) : State :=
  let v := evalSource src s
  let e := evalOperand dst v.2
  setFlags (g (load e.1 e.2) v.1) e.2

/-- R81: the shape of ADD, SUB, AND, OR and XOR, with `g` the function from the destination's and the
source's values to the unbounded result. -/
def combineOperands (g : Word → Word → Int) (dst src : Operand) (s : State) : State :=
  let v := evalSource src s
  let e := evalOperand dst v.2
  let n := g (load e.1 e.2) v.1
  setFlags n (store e.1 (wrap16 n) e.2)

end Sys2Proof.Machine
end

