-- ==== Sys2Proof/Machine/Alu.lean ====
section
/-! DEFINITION. CMP and the five two-operand computations (spec/43_compare_and_alu.md rules R110 to R117).
The carry flag is an output of CMP, ADD and SUB, never an input (R116). -/

namespace Sys2Proof.Machine

/-- R110: `n <- d - s`, discarded. -/
def execCmp (dst src : Operand) (s : State) : Host.Outcome State Fault Refusal :=
  .next (compareOperands (fun d v => (d.toNat : Int) - v.toNat) dst src s)

/-- R111: `n <- d + s`. -/
def execAdd (dst src : Operand) (s : State) : Host.Outcome State Fault Refusal :=
  .next (combineOperands (fun d v => (d.toNat : Int) + v.toNat) dst src s)

/-- R112: `n <- d - s`. -/
def execSub (dst src : Operand) (s : State) : Host.Outcome State Fault Refusal :=
  .next (combineOperands (fun d v => (d.toNat : Int) - v.toNat) dst src s)

/-- R113: `n <- d & s`. -/
def execAnd (dst src : Operand) (s : State) : Host.Outcome State Fault Refusal :=
  .next (combineOperands (fun d v => ((d &&& v).toNat : Int)) dst src s)

/-- R114: `n <- d | s`. -/
def execOr (dst src : Operand) (s : State) : Host.Outcome State Fault Refusal :=
  .next (combineOperands (fun d v => ((d ||| v).toNat : Int)) dst src s)

/-- R115: `n <- d ^ s`. -/
def execXor (dst src : Operand) (s : State) : Host.Outcome State Fault Refusal :=
  .next (combineOperands (fun d v => ((d ^^^ v).toNat : Int)) dst src s)

end Sys2Proof.Machine
end

