-- ==== Sys2Proof/Machine/Moves.lean ====
section
/-! DEFINITION. MOV, the three conditional moves and CALL (spec/42_moves_and_call.md rules R100 to R105).
Every transfer of control is one of these or another write of R7 (R106). -/

namespace Sys2Proof.Machine

/-- R100. -/
def execMov (dst src : Operand) (s : State) : Host.Outcome State Fault Refusal :=
  .next (moveIf true dst src s)

/-- R101: moves if `Z = 1`. -/
def execCmoveq (dst src : Operand) (s : State) : Host.Outcome State Fault Refusal :=
  .next (moveIf s.z dst src s)

/-- R102: moves if `C = 1`. -/
def execCmovlt (dst src : Operand) (s : State) : Host.Outcome State Fault Refusal :=
  .next (moveIf s.c dst src s)

/-- R103: moves if `Z = 0` and `C = 0`. -/
def execCmovgt (dst src : Operand) (s : State) : Host.Outcome State Fault Refusal :=
  .next (moveIf (!s.z && !s.c) dst src s)

/-- R105: the destination receives `x[7]`, and `x[7]` the source's value. -/
def execCall (dst src : Operand) (s : State) : Host.Outcome State Fault Refusal :=
  .next (callInto dst src s)

end Sys2Proof.Machine
end

