-- ==== Sys2Proof/Machine/Single.lean ====
section
/-! DEFINITION. The six single-operand instructions (spec/41_single_operand.md rules R90 to R95). -/

namespace Sys2Proof.Machine

/-- R90: `n <- a + 1`. -/
def execInc (op : Operand) (s : State) : Host.Outcome State Fault Refusal :=
  .next (modifyOperand (fun a => (a.toNat : Int) + 1) op s)

/-- R91: `n <- a - 1`. -/
def execDec (op : Operand) (s : State) : Host.Outcome State Fault Refusal :=
  .next (modifyOperand (fun a => (a.toNat : Int) - 1) op s)

/-- R92: `n <- (0xFFFF - a) + 1`, NOT then INC with one evaluation of the operand. -/
def execNeg (op : Operand) (s : State) : Host.Outcome State Fault Refusal :=
  .next (modifyOperand (fun a => (0xFFFF - (a.toNat : Int)) + 1) op s)

/-- R93: `n <- 0xFFFF - a`, the bitwise complement. -/
def execNot (op : Operand) (s : State) : Host.Outcome State Fault Refusal :=
  .next (modifyOperand (fun a => 0xFFFF - (a.toNat : Int)) op s)

/-- R94: `n <- 2 * a`. -/
def execLsh (op : Operand) (s : State) : Host.Outcome State Fault Refusal :=
  .next (modifyOperand (fun a => 2 * (a.toNat : Int)) op s)

/-- R95: `n <- floor(a / 2)`; the bit shifted out is lost. -/
def execRsh (op : Operand) (s : State) : Host.Outcome State Fault Refusal :=
  .next (modifyOperand (fun a => ((a.toNat / 2 : Nat) : Int)) op s)

end Sys2Proof.Machine
end

