-- ==== Sys2Proof/Machine/Dispatch.lean ====
section
/-! DEFINITION. One arm per constructor of `Instr`, each one direct call of its meaning. -/

namespace Sys2Proof.Machine

def exec (i : Instr) (s : State) : Host.Outcome State Fault Refusal :=
  match i with
  | .inc op => Sys2Proof.Machine.execInc op s
  | .dec op => Sys2Proof.Machine.execDec op s
  | .neg op => Sys2Proof.Machine.execNeg op s
  | .not op => Sys2Proof.Machine.execNot op s
  | .lsh op => Sys2Proof.Machine.execLsh op s
  | .rsh op => Sys2Proof.Machine.execRsh op s
  | .mov dst src => Sys2Proof.Machine.execMov dst src s
  | .cmoveq dst src => Sys2Proof.Machine.execCmoveq dst src s
  | .cmovlt dst src => Sys2Proof.Machine.execCmovlt dst src s
  | .cmovgt dst src => Sys2Proof.Machine.execCmovgt dst src s
  | .call dst src => Sys2Proof.Machine.execCall dst src s
  | .cmp dst src => Sys2Proof.Machine.execCmp dst src s
  | .add dst src => Sys2Proof.Machine.execAdd dst src s
  | .sub dst src => Sys2Proof.Machine.execSub dst src s
  | .and dst src => Sys2Proof.Machine.execAnd dst src s
  | .or dst src => Sys2Proof.Machine.execOr dst src s
  | .xor dst src => Sys2Proof.Machine.execXor dst src s

end Sys2Proof.Machine
end

