-- ==== Sys2Proof/WellFormed.lean ====
section
/-! DEFINITION. What is well formed. Every term of `Instr` is an instruction: every combination of opcode,
mode and register is legal (spec/30_encoding.md rule R62), and the types hold no other value (log entry 27).
What can be ill formed is an instruction as it lies in the code together with its immediate words: it has
one word for each immediate operand and no other (rules R56 and R57). -/

namespace Sys2Proof

/-- R55, R56: the operand `(10, 111)`, postincrement on R7, is the immediate. -/
def Operand.isImmediate (o : Operand) : Bool :=
  o.mode == .postinc && o.reg == .r7

/-- How many immediate words follow the instruction's own bytes (R57). -/
def Instr.immediates (i : Instr) : Nat :=
  i.operands.countP Operand.isImmediate

/-- An instruction as it lies in the code: its own bytes, then its immediate words in the order in which
they follow it, the source's before the destination's (R56). -/
structure Code where
  instr : Instr
  imms : List Word
  deriving DecidableEq, Repr

/-- R56, R57: one immediate word for each operand that is `(10, 111)`, and no other word. -/
def Code.wellFormed (c : Code) : Bool :=
  c.imms.length == c.instr.immediates

end Sys2Proof
end

