-- ==== Sys2Proof/Decode.lean ====
section
/-! DEFINITION. Decoding, total on any bytes and rejecting by name, and after it the encoder, both written
from the encoding tables of spec/30_encoding.md (rules R50 to R62). `b0` is the byte at the lower address
(spec/20_memory.md rule R34). -/

namespace Sys2Proof

/-- Why bytes are no instruction. -/
inductive DecodeError where
  /-- R60: the first byte is a double-operand opcode `1011` to `1111` (`0xEC` to `0xFF`). Raised by
  `decode`; safe. -/
  | unassigned (b0 : Byte)
  /-- The bytes end before the instruction does. Raised by `decode` on a list that is too short; the machine
  never meets it, since a fetch reads as many bytes as the format has (R53). Safe. -/
  | truncated
  deriving DecidableEq, Repr

/-- R12, R54: the register a 3-bit field names. -/
def Reg.ofBits (b : BitVec 3) : Reg :=
  match b.toNat with
  | 0 => .r0
  | 1 => .r1
  | 2 => .r2
  | 3 => .r3
  | 4 => .r4
  | 5 => .r5
  | 6 => .r6
  | _ => .r7

/-- R55: the mode a 2-bit field names. -/
def Mode.ofBits (b : BitVec 2) : Mode :=
  match b.toNat with
  | 0 => .direct
  | 1 => .indirect
  | 2 => .postinc
  | _ => .predec

/-- R58: the instruction a 3-bit opcode of format S names; `110` and `111` belong to format D. -/
def singleOp (op : BitVec 3) : Option (Operand → Instr) :=
  match op.toNat with
  | 0 => some .inc
  | 1 => some .dec
  | 2 => some .neg
  | 3 => some .not
  | 4 => some .lsh
  | 5 => some .rsh
  | _ => none

/-- R59: the instruction a 4-bit opcode of format D names; `1011` to `1111` are unassigned (R60). -/
def doubleOp (op : BitVec 4) : Option (Operand → Operand → Instr) :=
  match op.toNat with
  | 0 => some .mov
  | 1 => some .cmoveq
  | 2 => some .cmovlt
  | 3 => some .cmovgt
  | 4 => some .call
  | 5 => some .cmp
  | 6 => some .add
  | 7 => some .sub
  | 8 => some .and
  | 9 => some .or
  | 10 => some .xor
  | _ => none

/-- R53: the marker, `b0[7:6] = 11`, says that a second byte belongs to the instruction. -/
def isFormatD (b0 : Byte) : Bool :=
  b0.extractLsb' 6 2 == 3#2

/-- R51: the operand of a format S byte, mode `b0[4:3]` and register `b0[2:0]`. -/
def operandS (b0 : Byte) : Operand :=
  ⟨Mode.ofBits (b0.extractLsb' 3 2), Reg.ofBits (b0.extractLsb' 0 3)⟩

/-- R52: the destination of format D, mode `b0[1:0]` and register `b1[7:5]`. -/
def operandDst (b0 b1 : Byte) : Operand :=
  ⟨Mode.ofBits (b0.extractLsb' 0 2), Reg.ofBits (b1.extractLsb' 5 3)⟩

/-- R52: the source of format D, mode `b1[4:3]` and register `b1[2:0]`. -/
def operandSrc (b1 : Byte) : Operand :=
  ⟨Mode.ofBits (b1.extractLsb' 3 2), Reg.ofBits (b1.extractLsb' 0 3)⟩

/-- R51, R58: the instruction of a format S byte. -/
def decodeS (b0 : Byte) : Option Instr :=
  match singleOp (b0.extractLsb' 5 3) with
  | some mk => some (mk (operandS b0))
  | none => none

/-- R52, R59: the instruction that a format D byte begins, once its second byte is known; the verdict
`none` is reached on `b0` alone (R60). -/
def decodeD (b0 : Byte) : Option (Byte → Instr) :=
  match doubleOp (b0.extractLsb' 2 4) with
  | some mk => some (fun b1 => mk (operandDst b0 b1) (operandSrc b1))
  | none => none

/-- R53: read one instruction from the front of a list of bytes, and give the bytes that follow it. Its
immediate words, if it has any, are the first of those (R56). -/
def decode : List Byte → Except DecodeError (Instr × List Byte)
  | [] => .error .truncated
  | b0 :: rest =>
    if isFormatD b0 then
      match decodeD b0, rest with
      | none, _ => .error (.unassigned b0)
      | some _, [] => .error .truncated
      | some finish, b1 :: rest' => .ok (finish b1, rest')
    else
      match decodeS b0 with
      | some i => .ok (i, rest)
      | none => .error (.unassigned b0)

/-- R33: the bytes of a word as they lie in memory, the less significant at the lower address. -/
def wordBytes (v : Word) : List Byte :=
  [v.extractLsb' 0 8, v.extractLsb' 8 8]

/-- R33: `n` little-endian words from the front of a list of bytes. -/
def takeWords : Nat → List Byte → Except DecodeError (List Word × List Byte)
  | 0, bs => .ok ([], bs)
  | n + 1, lo :: hi :: rest =>
    match takeWords n rest with
    | .ok (ws, rest') => .ok ((hi ++ lo) :: ws, rest')
    | .error e => .error e
  | _ + 1, _ => .error .truncated

/-- R56, R57: read an instruction with its immediate words from the front of a list of bytes, as a
disassembler does. -/
def decodeCode (bs : List Byte) : Except DecodeError (Code × List Byte) :=
  match decode bs with
  | .error e => .error e
  | .ok (i, rest) =>
    match takeWords i.immediates rest with
    | .error e => .error e
    | .ok (ws, rest') => .ok (⟨i, ws⟩, rest')

/-! ## The encoder -/

/-- R12: a register's field. -/
def Reg.bits : Reg → BitVec 3
  | .r0 => 0b000
  | .r1 => 0b001
  | .r2 => 0b010
  | .r3 => 0b011
  | .r4 => 0b100
  | .r5 => 0b101
  | .r6 => 0b110
  | .r7 => 0b111

/-- R55: a mode's field. -/
def Mode.bits : Mode → BitVec 2
  | .direct => 0b00
  | .indirect => 0b01
  | .postinc => 0b10
  | .predec => 0b11

/-- R51: the byte of format S, from the left opcode, mode, register. -/
def encodeS (op : BitVec 3) (o : Operand) : List Byte :=
  [op ++ o.mode.bits ++ o.reg.bits]

/-- R52: the two bytes of format D, from the left marker, opcode, dst. mode; dst. register, src. mode,
src. register. -/
def encodeD (op : BitVec 4) (dst src : Operand) : List Byte :=
  [(0b11#2 ++ op ++ dst.mode.bits : BitVec 8), dst.reg.bits ++ src.mode.bits ++ src.reg.bits]

/-- R58, R59: the bytes of an instruction in ascending addresses, without its immediate words. -/
def encode : Instr → List Byte
  | .inc op => encodeS 0b000 op
  | .dec op => encodeS 0b001 op
  | .neg op => encodeS 0b010 op
  | .not op => encodeS 0b011 op
  | .lsh op => encodeS 0b100 op
  | .rsh op => encodeS 0b101 op
  | .mov dst src => encodeD 0b0000 dst src
  | .cmoveq dst src => encodeD 0b0001 dst src
  | .cmovlt dst src => encodeD 0b0010 dst src
  | .cmovgt dst src => encodeD 0b0011 dst src
  | .call dst src => encodeD 0b0100 dst src
  | .cmp dst src => encodeD 0b0101 dst src
  | .add dst src => encodeD 0b0110 dst src
  | .sub dst src => encodeD 0b0111 dst src
  | .and dst src => encodeD 0b1000 dst src
  | .or dst src => encodeD 0b1001 dst src
  | .xor dst src => encodeD 0b1010 dst src

/-- R56: the bytes of an instruction with its immediate words. -/
def encodeCode (c : Code) : List Byte :=
  encode c.instr ++ c.imms.flatMap wordBytes

/-- R57: the bytes an instruction occupies: its format's, and two for each immediate operand. -/
def Instr.length (i : Instr) : Nat :=
  (encode i).length + 2 * i.immediates

/-! ## The opcode table's numbering -/

/-- The `n` bytes that the low `8 * n` bits of `w` stand for, most significant first: the table numbers a
format D instruction as the string `b0 ++ b1` with `b0` in bits 15:8, and `b0` lies at the lower address
(R59, R34; log entry 4). -/
def tableBytes : Nat → Nat → List Byte
  | 0, _ => []
  | n + 1, w => BitVec.ofNat 8 (w >>> (8 * n)) :: tableBytes n w

/-- The bytes in memory of the instruction whose table bits are `w`: those the table numbers, then zeros up
to the longest instruction. -/
def fetchBytes (nbits w : Nat) : List Byte :=
  (tableBytes ((nbits + 7) / 8) w ++ List.replicate Config.longestInstr 0).take
    (max Config.longestInstr ((nbits + 7) / 8))

/-- The instruction the decoder reads from an instruction whose bits are `w`, numbered as
spec/opcode_table.json numbers them. -/
def decodeTableWord (nbits w : Nat) : Option Instr :=
  match decode (fetchBytes nbits w) with
  | .ok (i, _) => some i
  | .error _ => none

end Sys2Proof
end

