-- ==== Sys2Proof/Machine/Fetch.lean ====
section
/-! DEFINITION. Fetching an instruction (spec/40_operands.md rules R70 and R71, spec/30_encoding.md rule
R53): one byte for format S, two for format D, and only the first where it is unassigned (R60). -/

namespace Sys2Proof.Machine

/-- What fetching at `x[7]` gives. -/
inductive Fetched where
  /-- An instruction, and the state with `x[7]` past the bytes fetched. -/
  | instr (i : Instr) (s : State)
  /-- R121: a first byte that begins no instruction, and the state its fetch left. -/
  | unassigned (b0 : Byte) (s : State)
  deriving DecidableEq, Repr

/-- R70: fetch `b0`, decide the format from it, for an assigned format D opcode fetch `b1`, split the
fields. -/
def fetchInstr (s : State) : Fetched :=
  let f0 := fetch8 s
  if isFormatD f0.1 then
    match decodeD f0.1 with
    | some finish =>
      let f1 := fetch8 f0.2
      .instr (finish f1.1) f1.2
    | none => .unassigned f0.1 f0.2
  else
    match decodeS f0.1 with
    | some i => .instr i f0.2
    | none => .unassigned f0.1 f0.2

/-- The state with the bytes of an instruction stored where the next step fetches it. -/
def State.placeAtPc (s : State) (bs : List Byte) : State :=
  s.setMem (s.mem.writeBytes s.pc bs)

end Sys2Proof.Machine
end

