-- ==== Sys2Proof/Machine/Step.lean ====
section
/-! DEFINITION. The step (spec/40_operands.md rule R70): a deterministic function of the state
(spec/60_exceptions.md rule R130). -/

namespace Sys2Proof.Machine

/-- R70: fetch and decode, then execute; a first byte that begins no instruction faults (R121). -/
def step (s : State) : Host.Outcome State Fault Refusal :=
  match fetchInstr s with
  | .instr i t => exec i t
  | .unassigned b0 t => raiseIllegalInstruction b0 t

/-- `s` with the instruction whose table bits are `w` stored where `step` fetches, followed by zero bytes up
to the longest instruction (log entries 3 and 4). -/
def State.withFetchWord (s : State) (nbits w : Nat) : State :=
  s.placeAtPc (fetchBytes nbits w)

end Sys2Proof.Machine
end

