-- ==== Sys2Proof/Asm.lean ====
section
/-! DEFINITION. The assembly notation of the spec's examples (spec/30_encoding.md rules R63 to R66), as text.
No rule of the machine depends on it (log entry 24). -/

namespace Sys2Proof

/-- R64: a register's name, in upper case. -/
def Reg.text : Reg → String
  | .r0 => "R0"
  | .r1 => "R1"
  | .r2 => "R2"
  | .r3 => "R3"
  | .r4 => "R4"
  | .r5 => "R5"
  | .r6 => "R6"
  | .r7 => "R7"

/-- R65: a number in octal, all digits of 16 bits but leading zeros. -/
def octalText (v : Word) : String :=
  String.ofList (Nat.toDigits 8 v.toNat)

/-- R64: an operand, without a word for it. -/
def Operand.text (o : Operand) : String :=
  match o.mode with
  | .direct => o.reg.text
  | .indirect => "@" ++ o.reg.text
  | .postinc => "@" ++ o.reg.text ++ "+"
  | .predec => "@-" ++ o.reg.text

/-- R64, R65: an operand and the words that are left for the operands after it; the immediate is `#k` with
the word `k` that follows the instruction, and `@R7+` where there is no such word. -/
def Operand.textWith (o : Operand) (imms : List Word) : String × List Word :=
  if o.isImmediate then
    match imms with
    | k :: rest => ("#" ++ octalText k, rest)
    | [] => (o.text, [])
  else (o.text, imms)

/-- R63: the mnemonic, in upper case. -/
def Instr.mnemonic : Instr → String
  | .inc _ => "INC"
  | .dec _ => "DEC"
  | .neg _ => "NEG"
  | .not _ => "NOT"
  | .lsh _ => "LSH"
  | .rsh _ => "RSH"
  | .mov _ _ => "MOV"
  | .cmoveq _ _ => "CMOVEQ"
  | .cmovlt _ _ => "CMOVLT"
  | .cmovgt _ _ => "CMOVGT"
  | .call _ _ => "CALL"
  | .cmp _ _ => "CMP"
  | .add _ _ => "ADD"
  | .sub _ _ => "SUB"
  | .and _ _ => "AND"
  | .or _ _ => "OR"
  | .xor _ _ => "XOR"

/-- R63: the destination is written first, although the source's immediate word comes first (R56). -/
def Code.text (c : Code) : String :=
  match c.instr.operands with
  | [o] => c.instr.mnemonic ++ " " ++ (o.textWith c.imms).1
  | [src, dst] =>
    c.instr.mnemonic ++ " " ++ (dst.textWith (src.textWith c.imms).2).1 ++ ", " ++ (src.textWith c.imms).1
  | _ => c.instr.mnemonic

end Sys2Proof
end

