-- ==== Sys2Proof/Machine/Access.lean ====
section
/-! DEFINITION. The memory accesses of a step, with their widths and their order (spec/20_memory.md rules
R38 and R42), and the machine with fewer than 65536 bytes of memory (rule R32), which is the step guarded by
them. -/

namespace Sys2Proof.Machine

/-- R38: the kinds of memory access. -/
inductive AccessKind where
  /-- An instruction fetch, one byte. -/
  | fetch
  /-- An operand read, one word. -/
  | read
  /-- An operand write, one word. -/
  | write
  deriving DecidableEq, Repr

/-- One memory access at an address. -/
structure Access where
  kind : AccessKind
  addr : Word
  deriving DecidableEq, Repr

/-- R38, R37: the addresses of the bytes an access touches. -/
def Access.bytes (x : Access) : List Word :=
  match x.kind with
  | .fetch => [x.addr]
  | .read => [x.addr, x.addr + 1#16]
  | .write => [x.addr, x.addr + 1#16]

/-- R38: an operand in mode 00 makes no memory access; the others make one of the kind given. -/
def Loc.access (l : Loc) (k : AccessKind) : List Access :=
  match l with
  | .reg _ => []
  | .mem a => [⟨k, a⟩]

/-- R38: the accesses of a destination that is written and not read. -/
def writeAccess (o : Operand) (s : State) : List Access :=
  (evalOperand o s).1.access .write

/-- R38: the accesses of an operand that is read and not written. -/
def readAccess (o : Operand) (s : State) : List Access :=
  (evalOperand o s).1.access .read

/-- R38: the accesses of an operand that is read, then written at the same address. -/
def modifyAccess (o : Operand) (s : State) : List Access :=
  readAccess o s ++ writeAccess o s

/-- R38, R42: the operand accesses of an instruction, in order, from the state its fetch left. -/
def instrAccesses (i : Instr) (s : State) : List Access :=
  match i with
  | .inc op => modifyAccess op s
  | .dec op => modifyAccess op s
  | .neg op => modifyAccess op s
  | .not op => modifyAccess op s
  | .lsh op => modifyAccess op s
  | .rsh op => modifyAccess op s
  | .mov dst src => readAccess src s ++ writeAccess dst (evalSource src s).2
  | .cmoveq dst src => readAccess src s ++ if s.z then writeAccess dst (evalSource src s).2 else []
  | .cmovlt dst src => readAccess src s ++ if s.c then writeAccess dst (evalSource src s).2 else []
  | .cmovgt dst src => readAccess src s ++ if !s.z && !s.c then writeAccess dst (evalSource src s).2 else []
  | .call dst src => readAccess src s ++ writeAccess dst (evalSource src s).2
  | .cmp dst src => readAccess src s ++ readAccess dst (evalSource src s).2
  | .add dst src => readAccess src s ++ modifyAccess dst (evalSource src s).2
  | .sub dst src => readAccess src s ++ modifyAccess dst (evalSource src s).2
  | .and dst src => readAccess src s ++ modifyAccess dst (evalSource src s).2
  | .or dst src => readAccess src s ++ modifyAccess dst (evalSource src s).2
  | .xor dst src => readAccess src s ++ modifyAccess dst (evalSource src s).2

/-- R42: the fetches of a step, in order: one for format S and for an unassigned first byte, two for
format D. -/
def fetchAccesses (s : State) : List Access :=
  match fetchInstr s with
  | .instr _ _ =>
    if isFormatD (s.mem.read s.pc) then [⟨.fetch, s.pc⟩, ⟨.fetch, s.pc + 1#16⟩] else [⟨.fetch, s.pc⟩]
  | .unassigned _ _ => [⟨.fetch, s.pc⟩]

/-- R42: every memory access of the step from `s`, in order. -/
def stepAccesses (s : State) : List Access :=
  match fetchInstr s with
  | .instr i t => fetchAccesses s ++ instrAccesses i t
  | .unassigned _ _ => fetchAccesses s

/-- The first byte that the step from `s` would access at or above `memBytes`. -/
def firstOutside (memBytes : Nat) (s : State) : Option Word :=
  ((stepAccesses s).flatMap Access.bytes).find? (fun a => decide (memBytes ≤ a.toNat))

/-- R32: the step of a machine with `memBytes` bytes of memory: it refuses the run where the step would
access an address at or above `memBytes`. With the default 65536 it is `step`. -/
def stepIn (memBytes : Nat) (s : State) : Host.Outcome State Fault Refusal :=
  match firstOutside memBytes s with
  | some a => .refused (.outsideMemory memBytes a)
  | none => step s

end Sys2Proof.Machine
end

