-- ==== Sys2Proof/Machine/Launch.lean ====
section
/-! DEFINITION. Launch (spec/70_reset_and_hazards.md rules R140 to R142, spec/10_state.md rule R24): the
whole initial state is supplied from outside. -/

namespace Sys2Proof.Machine

/-- The registers whose values are given one by one. -/
def Registers.ofFn (f : Reg → Word) : Registers :=
  { r0 := f .r0, r1 := f .r1, r2 := f .r2, r3 := f .r3, r4 := f .r4, r5 := f .r5, r6 := f .r6, r7 := f .r7 }

/-- The cells, in canonical form, of the `n` bytes of `f` that lie at `low` and up. -/
def cellsFrom (f : Word → Byte) : Nat → Nat → List Host.Cell
  | _, 0 => []
  | low, n + 1 =>
    if f (BitVec.ofNat 16 low) = Config.unlistedByte then cellsFrom f (low + 1) n
    else (low, f (BitVec.ofNat 16 low)) :: cellsFrom f (low + 1) n

/-- R22: the memory whose byte at each address is given. -/
def Memory.ofFn (f : Word → Byte) : Memory := { cells := cellsFrom f 0 Config.memBytes }

/-- R140: the state at launch, with `INIT_R`, `INIT_Z`, `INIT_C` and `INIT_MEM` its arguments; the entry
point is `INIT_R[7]` (R141). Nothing has to be initialised before the first step (R142). -/
def launch (initR : Reg → Word) (initZ initC : Bool) (initMem : Word → Byte) : State where
  regs := Registers.ofFn initR
  z := initZ
  c := initC
  mem := Memory.ofFn initMem

end Sys2Proof.Machine
end

