-- ==== Sys2Proof/Machine/Run.lean ====
section
/-! DEFINITION. Runs and their end (spec/70_reset_and_hazards.md rule R143), with `MEM_BYTES` an argument
(spec/00_scope.md rule R3, spec/20_memory.md rule R32). misa has no instruction that stops it; the end of a
run is the parameter `HALT`, a decidable predicate tested before each step. -/

namespace Sys2Proof.Machine

/-- R143: where a run stands after at most a given number of steps. -/
inductive RunResult where
  /-- `HALT` holds in `final`, the run's final state. -/
  | ended (final : State)
  /-- A step raised the model fault; no final state (R125). -/
  | faulted (reason : Fault)
  /-- R32: a step would have accessed a byte outside a memory of fewer than 65536 bytes, and the run is
  refused; no final state. -/
  | refused (reason : Refusal)
  /-- The steps allowed are used up and `HALT` does not hold yet. -/
  | running (now : State)
  deriving DecidableEq, Repr

/-- R143, R32: the run from `s` with `memBytes` bytes of memory under `halt`, which is tested before each
step, for at most the given number of steps. -/
def runUntil (memBytes : Nat) (halt : State → Bool) : Nat → State → RunResult
  | 0, s => if halt s then .ended s else .running s
  | n + 1, s =>
    if halt s then .ended s
    else
      match stepIn memBytes s with
      | .next t => runUntil memBytes halt n t
      | .fault r => .faulted r
      | .refused r => .refused r

/-- R143: the suggested form of `HALT`, a stop address. -/
def haltAt (stop : Word) (s : State) : Bool := s.pc == stop

/-- R143: the run diverges: whatever the number of steps, it neither ends nor faults nor is refused. -/
def Diverges (memBytes : Nat) (halt : State → Bool) (s : State) : Prop :=
  ∀ n, ∃ t, runUntil memBytes halt n s = .running t

end Sys2Proof.Machine
end

