-- ==== Sys2Proof/Safety.lean ====
section
/-! DEFINITION. What counts as a safe step and a safe run, and the terms in which claims say what an
instruction changes and what it leaves alone. -/

namespace Sys2Proof

/-- R75, R76: the operand's addressing mode updates this register. -/
def Operand.modifies (o : Operand) (r : Reg) : Bool :=
  (o.mode == .postinc || o.mode == .predec) && o.reg == r

/-- R101 to R103: the instructions that read a flag (R19). -/
def Instr.isConditional : Instr → Bool
  | .inc _ => false
  | .dec _ => false
  | .neg _ => false
  | .not _ => false
  | .lsh _ => false
  | .rsh _ => false
  | .mov _ _ => false
  | .cmoveq _ _ => true
  | .cmovlt _ _ => true
  | .cmovgt _ _ => true
  | .call _ _ => false
  | .cmp _ _ => false
  | .add _ _ => false
  | .sub _ _ => false
  | .and _ _ => false
  | .or _ _ => false
  | .xor _ _ => false

/-- R105: the instruction is CALL, the one that writes R7 besides its destination. -/
def Instr.isCall : Instr → Bool
  | .inc _ => false
  | .dec _ => false
  | .neg _ => false
  | .not _ => false
  | .lsh _ => false
  | .rsh _ => false
  | .mov _ _ => false
  | .cmoveq _ _ => false
  | .cmovlt _ _ => false
  | .cmovgt _ _ => false
  | .call _ _ => true
  | .cmp _ _ => false
  | .add _ _ => false
  | .sub _ _ => false
  | .and _ _ => false
  | .or _ _ => false
  | .xor _ _ => false

/-- R58: a row of the format S table: the opcode `b0[7:5]`, the range of first bytes and the match under the
mask `0xE0` say the same of a first byte, and every byte of the row decodes, with its mode and register
fields, to the row's instruction. -/
def SingleRow (op : BitVec 3) (lo hi matched : Byte) (mk : Operand → Instr) : Prop :=
  (∀ b0 : Byte, (b0.extractLsb' 5 3 = op ↔ lo ≤ b0 ∧ b0 ≤ hi) ∧ (b0.extractLsb' 5 3 = op ↔ b0 &&& 0xE0#8 = matched)) ∧
  ∀ (b0 : Byte) (rest : List Byte), b0.extractLsb' 5 3 = op →
    ∃ o : Operand, o.mode.bits = b0.extractLsb' 3 2 ∧ o.reg.bits = b0.extractLsb' 0 3 ∧
      decode (b0 :: rest) = .ok (mk o, rest)

/-- R59: an assigned row of the format D table, in the same way over the marker, the opcode `b0[5:2]` and the
string `b0 ++ b1` under the mask `0xFC00`. -/
def DoubleRow (op : BitVec 4) (lo hi : Byte) (matched : Word) (mk : Operand → Operand → Instr) : Prop :=
  (∀ b0 b1 : Byte,
    (b0.extractLsb' 6 2 = 3#2 ∧ b0.extractLsb' 2 4 = op ↔ lo ≤ b0 ∧ b0 ≤ hi) ∧
    (b0.extractLsb' 6 2 = 3#2 ∧ b0.extractLsb' 2 4 = op ↔ (b0 ++ b1 : Word) &&& 0xFC00#16 = matched)) ∧
  ∀ (b0 b1 : Byte) (rest : List Byte), b0.extractLsb' 6 2 = 3#2 → b0.extractLsb' 2 4 = op →
    ∃ dst src : Operand, dst.mode.bits = b0.extractLsb' 0 2 ∧ dst.reg.bits = b1.extractLsb' 5 3 ∧
      src.mode.bits = b1.extractLsb' 3 2 ∧ src.reg.bits = b1.extractLsb' 0 3 ∧
      decode (b0 :: b1 :: rest) = .ok (mk dst src, rest)

/-- R59, R60: an unassigned row of the format D table. -/
def UnassignedRow (op : BitVec 4) (lo hi : Byte) : Prop :=
  ∀ (b0 : Byte) (rest : List Byte),
    (b0.extractLsb' 6 2 = 3#2 ∧ b0.extractLsb' 2 4 = op ↔ lo ≤ b0 ∧ b0 ≤ hi) ∧
    (lo ≤ b0 → b0 ≤ hi → decode (b0 :: rest) = .error (.unassigned b0))

namespace Machine

/-- The two bytes at `x[7]`, all that the instruction's own bytes can be (R53). -/
def codeAt (s : State) : List Byte := [s.mem.read s.pc, s.mem.read (s.pc + 1#16)]

/-- The step from `s` does not fault. -/
def SafeStep (s : State) : Prop := ∃ t, step s = .next t

/-- R125, R32: no step of the run from `s` under `halt`, with `memBytes` bytes of memory, faults or is
refused. -/
def SafeRun (memBytes : Nat) (halt : State → Bool) (s : State) : Prop :=
  (∀ n r, runUntil memBytes halt n s ≠ .faulted r) ∧ ∀ n r, runUntil memBytes halt n s ≠ .refused r

/-- The bytes of memory a location covers: the two bytes of its word, and none for a register (R78). -/
def Loc.covers (l : Loc) (a : Word) : Bool :=
  match l with
  | .reg _ => false
  | .mem b => a == b || a == b + 1#16

/-- What an instruction with the operands `os`, started in `s`, leaves alone when it stores to the location
`l`: with `e` the state after its operands' evaluation and `t` the state it ends in, every register but a
register destination is as evaluation left it, and is as at the start unless an operand's addressing mode
updates it; and every byte of memory but those that `l` covers is as at the start. -/
def ChangesOnlyAt (l : Loc) (os : List Operand) (s e t : State) : Prop :=
  (∀ r, l ≠ .reg r → t.getReg r = e.getReg r) ∧
  (∀ r, l ≠ .reg r → (∀ o ∈ os, o.modifies r = false) → t.getReg r = s.getReg r) ∧
  (∀ a, l.covers a = false → t.mem.read a = s.mem.read a)

/-- The same for an instruction that stores nothing. -/
def StoresNothing (os : List Operand) (s e t : State) : Prop :=
  (∀ r, t.getReg r = e.getReg r) ∧
  (∀ r, (∀ o ∈ os, o.modifies r = false) → t.getReg r = s.getReg r) ∧
  (∀ a, t.mem.read a = s.mem.read a)

end Machine

end Sys2Proof
end

