-- ==== Sys2Proof/Certificates/Slice0/Obligations.lean ====
section
/-! DEFINITION. The statements for the provers. "Log n" is notes/assumptions/n.md; "D n" is the decision of
that number in spec/92_eei_decisions.md, by which the spec itself fixes what its source leaves open. Where a
statement rests on one, its docstring names it. -/

open Sys2Proof Sys2Proof.Machine

/-! ## Encoding -/

/-- R12: a register field's value is the register's number; all eight values are assigned. -/
def Obligations.RegisterFieldIsRegisterNumber : Prop :=
  Reg.ofBits 0b000 = .r0 ∧ Reg.ofBits 0b001 = .r1 ∧ Reg.ofBits 0b010 = .r2 ∧ Reg.ofBits 0b011 = .r3 ∧
  Reg.ofBits 0b100 = .r4 ∧ Reg.ofBits 0b101 = .r5 ∧ Reg.ofBits 0b110 = .r6 ∧ Reg.ofBits 0b111 = .r7 ∧
  (∀ b : BitVec 3, (Reg.ofBits b).bits = b) ∧ (∀ r : Reg, Reg.ofBits r.bits = r)

/-- 30_encoding.md section 1 (the table of R55): the mode field's four values, and immediate as `10` on R7. -/
def Obligations.ModeFieldSelectsMode : Prop :=
  Mode.ofBits 0b00 = .direct ∧ Mode.ofBits 0b01 = .indirect ∧ Mode.ofBits 0b10 = .postinc ∧
  Mode.ofBits 0b11 = .predec ∧ (∀ b : BitVec 2, (Mode.ofBits b).bits = b) ∧
  (∀ m : Mode, Mode.ofBits m.bits = m) ∧
  (∀ o : Operand, o.isImmediate = true ↔ o.mode.bits = 0b10 ∧ o.reg.bits = 0b111)

/-- R58: the opcode map of format S, row by row, and the two rows that belong to format D. -/
def Obligations.FormatSOpcodeMap : Prop :=
  SingleRow 0b000 0x00 0x1F 0x00 .inc ∧ SingleRow 0b001 0x20 0x3F 0x20 .dec ∧
  SingleRow 0b010 0x40 0x5F 0x40 .neg ∧ SingleRow 0b011 0x60 0x7F 0x60 .not ∧
  SingleRow 0b100 0x80 0x9F 0x80 .lsh ∧ SingleRow 0b101 0xA0 0xBF 0xA0 .rsh ∧
  (∀ b0 : Byte, b0.extractLsb' 5 3 = 0b110#3 ↔ isFormatD b0 = true ∧ b0.extractLsb' 2 4 ≤ 0b0111#4) ∧
  (∀ b0 : Byte, b0.extractLsb' 5 3 = 0b111#3 ↔ isFormatD b0 = true ∧ 0b1000#4 ≤ b0.extractLsb' 2 4) ∧
  (∀ b0 : Byte, (b0.extractLsb' 5 3 = 0b110#3 ↔ 0xC0 ≤ b0 ∧ b0 ≤ 0xDF) ∧
    (b0.extractLsb' 5 3 = 0b111#3 ↔ 0xE0 ≤ b0))

/-- R59: the opcode map of format D, row by row, the unassigned rows among them. -/
def Obligations.FormatDOpcodeMap : Prop :=
  DoubleRow 0b0000 0xC0 0xC3 0xC000 .mov ∧ DoubleRow 0b0001 0xC4 0xC7 0xC400 .cmoveq ∧
  DoubleRow 0b0010 0xC8 0xCB 0xC800 .cmovlt ∧ DoubleRow 0b0011 0xCC 0xCF 0xCC00 .cmovgt ∧
  DoubleRow 0b0100 0xD0 0xD3 0xD000 .call ∧ DoubleRow 0b0101 0xD4 0xD7 0xD400 .cmp ∧
  DoubleRow 0b0110 0xD8 0xDB 0xD800 .add ∧ DoubleRow 0b0111 0xDC 0xDF 0xDC00 .sub ∧
  DoubleRow 0b1000 0xE0 0xE3 0xE000 .and ∧ DoubleRow 0b1001 0xE4 0xE7 0xE400 .or ∧
  DoubleRow 0b1010 0xE8 0xEB 0xE800 .xor ∧
  UnassignedRow 0b1011 0xEC 0xEF ∧ UnassignedRow 0b1100 0xF0 0xF3 ∧ UnassignedRow 0b1101 0xF4 0xF7 ∧
  UnassignedRow 0b1110 0xF8 0xFB ∧ UnassignedRow 0b1111 0xFC 0xFF

/-- 30_encoding.md sections 1 and 4: decoding what the encoder writes gives the instruction back, whatever
bytes follow, for every instruction and every operand. -/
def Obligations.DecodeOfEncode : Prop :=
  ∀ (i : Instr) (rest : List Byte), decode (encode i ++ rest) = .ok (i, rest)

/-- 30_encoding.md sections 1 and 4: every instruction has one encoding: what decodes to it is what the
encoder writes. -/
def Obligations.EncodeOfDecode : Prop :=
  ∀ (i : Instr) (bs rest : List Byte), decode bs = .ok (i, rest) → bs = encode i ++ rest

/-- 30_encoding.md section 2: an instruction with its immediate words, the source's before the
destination's, is read back as it was laid out. -/
def Obligations.DecodeOfEncodeWithImmediates : Prop :=
  ∀ (c : Code) (rest : List Byte), c.wellFormed = true → decodeCode (encodeCode c ++ rest) = .ok (c, rest)

/-- 95_test_vectors.md section 1: bytes the source prints, and what they stand for. -/
def Obligations.PrintedWordsDecode : Prop :=
  decode [0b00000000] = .ok (.inc ⟨.direct, .r0⟩, []) ∧
  decode [0b00111000] = .ok (.dec ⟨.predec, .r0⟩, []) ∧
  decode [0b11000000, 0b00100000] = .ok (.mov ⟨.direct, .r1⟩ ⟨.direct, .r0⟩, []) ∧
  decode [0b11010010, 0b11010111] = .ok (.call ⟨.postinc, .r6⟩ ⟨.postinc, .r7⟩, []) ∧
  decode [0b11010110, 0b11100000] = .ok (.cmp ⟨.postinc, .r7⟩ ⟨.direct, .r0⟩, []) ∧
  decode [0b11101000, 0b00101000] = .ok (.xor ⟨.direct, .r1⟩ ⟨.indirect, .r0⟩, [])

/-! ## Operands -/

/-- 40_operands.md section 2 (indirect mode) with 20_memory.md sections 2 and 3. That the byte at the higher
address is the high one is the meaning of little endian, general knowledge (log 26); the absence of an
alignment rule and the wrap-around are the spec's decisions D6 and D7 (logs 9 and 21). -/
def Obligations.IndirectOperand : Prop :=
  ∀ (r : Reg) (s : State),
    evalOperand ⟨.indirect, r⟩ s = (.mem (s.getReg r), s) ∧
    load (.mem (s.getReg r)) s = s.mem.read (s.getReg r + 1#16) ++ s.mem.read (s.getReg r)

/-- R76: predecrement mode. -/
def Obligations.PredecrementOperand : Prop :=
  ∀ (r : Reg) (s : State),
    let e := evalOperand ⟨.predec, r⟩ s
    e.1 = .mem (s.getReg r - 2#16) ∧ e.2.getReg r = s.getReg r - 2#16 ∧
    (∀ r', r' ≠ r → e.2.getReg r' = s.getReg r') ∧ e.2.z = s.z ∧ e.2.c = s.c ∧ e.2.mem = s.mem ∧
    load e.1 e.2 = s.mem.readWord (s.getReg r - 2#16)

/-- 40_operands.md section 2 (postincrement and immediate). That the register moves at evaluation, before the
access, is the spec's decision D8 (log 18). -/
def Obligations.PostincrementOperand : Prop :=
  ∀ (r : Reg) (s : State),
    let e := evalOperand ⟨.postinc, r⟩ s
    e.1 = .mem (s.getReg r) ∧ e.2.getReg r = s.getReg r + 2#16 ∧
    (∀ r', r' ≠ r → e.2.getReg r' = s.getReg r') ∧ e.2.z = s.z ∧ e.2.c = s.c ∧ e.2.mem = s.mem ∧
    load e.1 e.2 = s.mem.readWord (s.getReg r)

/-- 40_operands.md section 2 (direct mode): the location is the register, nothing changes, and the value is
the one the register holds when it is loaded. -/
def Obligations.DirectOperand : Prop :=
  ∀ (r : Reg) (s later : State),
    evalOperand ⟨.direct, r⟩ s = (.reg r, s) ∧ load (.reg r) later = later.getReg r

/-- 40_operands.md section 2: evaluating an operand accesses no memory and changes no flag and no register
but the one its mode updates. -/
def Obligations.EvaluationFrame : Prop :=
  ∀ (o : Operand) (s : State),
    (evalOperand o s).2.mem = s.mem ∧ (evalOperand o s).2.z = s.z ∧ (evalOperand o s).2.c = s.c ∧
    (∀ r, o.modifies r = false → (evalOperand o s).2.getReg r = s.getReg r) ∧
    (∀ r, o.modifies r = true → r = o.reg ∧ (o.mode = .postinc ∨ o.mode = .predec))

/-- R78: load and store at a register and at a memory word. -/
def Obligations.LoadAndStore : Prop :=
  ∀ (s : State) (v : Word), s.mem.wf = true →
    (∀ r, load (.reg r) s = s.getReg r) ∧ (∀ a, load (.mem a) s = s.mem.readWord a) ∧
    (∀ r, (store (.reg r) v s).getReg r = v ∧ (∀ r', r' ≠ r → (store (.reg r) v s).getReg r' = s.getReg r') ∧
      (store (.reg r) v s).mem = s.mem) ∧
    (∀ a, (store (.mem a) v s).mem.readWord a = v ∧ (∀ r, (store (.mem a) v s).getReg r = s.getReg r) ∧
      (∀ a', a' ≠ a → a' ≠ a + 1#16 → (store (.mem a) v s).mem.read a' = s.mem.read a')) ∧
    (∀ l, (store l v s).z = s.z ∧ (store l v s).c = s.c)

/-- 20_memory.md section 2: data words are little endian, at every address, the top of memory among them. The
meaning of the term is general knowledge (log 26), wrap-around the spec's decision D7 (log 21). -/
def Obligations.WordsAreLittleEndian : Prop :=
  ∀ (m : Memory) (a v : Word), m.wf = true →
    (m.readWord a).toNat = (m.read a).toNat + 0x100 * (m.read (a + 1#16)).toNat ∧
    ((m.writeWord a v).read a).toNat = v.toNat % 0x100 ∧
    ((m.writeWord a v).read (a + 1#16)).toNat = v.toNat / 0x100 ∧
    (∀ a', a' ≠ a → a' ≠ a + 1#16 → (m.writeWord a v).read a' = m.read a')

/-- 40_operands.md section 5: the flag rule in plain arithmetic. It is the spec's decision D10 (log 11). -/
def Obligations.FlagRule : Prop :=
  ∀ (n : Int) (s : State),
    ((setFlags n s).z = true ↔ n % 0x10000 = 0) ∧ ((setFlags n s).c = true ↔ n < 0 ∨ 0xFFFF < n) ∧
    (setFlags n s).regs = s.regs ∧ (setFlags n s).mem = s.mem

/-! ## Single-operand instructions -/

/-- 41_single_operand.md, 000 INC. The rule for `C` is the spec's decision D10 (log 11). -/
def Obligations.IncResult : Prop :=
  ∀ (o : Operand) (s : State), s.mem.wf = true →
    let e := evalOperand o s
    let a := load e.1 e.2
    ∃ t, exec (.inc o) s = .next t ∧ load e.1 t = a + 1#16 ∧
      t.z = (a == 0xFFFF#16) ∧ t.c = (a == 0xFFFF#16) ∧ ChangesOnlyAt e.1 [o] s e.2 t

/-- 41_single_operand.md, 001 DEC. The rule for `C` is the spec's decision D10 (log 11). -/
def Obligations.DecResult : Prop :=
  ∀ (o : Operand) (s : State), s.mem.wf = true →
    let e := evalOperand o s
    let a := load e.1 e.2
    ∃ t, exec (.dec o) s = .next t ∧ load e.1 t = a - 1#16 ∧
      t.z = (a == 1#16) ∧ t.c = (a == 0#16) ∧ ChangesOnlyAt e.1 [o] s e.2 t

/-- 41_single_operand.md, 010 NEG. The rule for `C` is the spec's decision D11 (log 12). -/
def Obligations.NegResult : Prop :=
  ∀ (o : Operand) (s : State), s.mem.wf = true →
    let e := evalOperand o s
    let a := load e.1 e.2
    ∃ t, exec (.neg o) s = .next t ∧ load e.1 t = -a ∧
      t.z = (a == 0#16) ∧ t.c = (a == 0#16) ∧ ChangesOnlyAt e.1 [o] s e.2 t

/-- 41_single_operand.md, 011 NOT. That `C` is cleared is the spec's decision D13 (log 14). -/
def Obligations.NotResult : Prop :=
  ∀ (o : Operand) (s : State), s.mem.wf = true →
    let e := evalOperand o s
    let a := load e.1 e.2
    ∃ t, exec (.not o) s = .next t ∧ load e.1 t = ~~~a ∧
      t.z = (a == 0xFFFF#16) ∧ t.c = false ∧ ChangesOnlyAt e.1 [o] s e.2 t

/-- 41_single_operand.md, 100 LSH: bit 15 goes to `C`, which is the spec's decision D10 (log 11). -/
def Obligations.LshResult : Prop :=
  ∀ (o : Operand) (s : State), s.mem.wf = true →
    let e := evalOperand o s
    let a := load e.1 e.2
    ∃ t, exec (.lsh o) s = .next t ∧ load e.1 t = a <<< 1 ∧
      t.z = (a == 0#16 || a == 0x8000#16) ∧ t.c = a.getLsbD 15 ∧ ChangesOnlyAt e.1 [o] s e.2 t

/-- 41_single_operand.md, 101 RSH: a zero enters at bit 15. That `C` is cleared and does not take the bit
shifted out is the spec's decision D12 (log 13). -/
def Obligations.RshResult : Prop :=
  ∀ (o : Operand) (s : State), s.mem.wf = true →
    let e := evalOperand o s
    let a := load e.1 e.2
    ∃ t, exec (.rsh o) s = .next t ∧ load e.1 t = a >>> 1 ∧
      t.z = decide (a ≤ 1#16) ∧ t.c = false ∧ ChangesOnlyAt e.1 [o] s e.2 t

/-- 41_single_operand.md, 010 NEG: "equivalent to NOT INC", the flags included, on an operand whose
evaluation changes nothing (modes 00 and 01), so that evaluating it once or twice is the same. The flags are
the spec's decision D11 (log 12). -/
def Obligations.NegIsNotThenInc : Prop :=
  ∀ (o : Operand) (s : State), s.mem.wf = true → (∀ r, o.modifies r = false) →
    ∃ u t, exec (.not o) s = .next u ∧ exec (.inc o) u = .next t ∧ exec (.neg o) s = .next t

/-! ## Moves and CALL -/

/-- 42_moves_and_call.md, 0000 MOV: source first, then the destination. That `C` is cleared is the spec's
decision D13 (log 14). -/
def Obligations.MovResult : Prop :=
  ∀ (dst src : Operand) (s : State), s.mem.wf = true →
    let v := evalSource src s
    let e := evalOperand dst v.2
    ∃ t, exec (.mov dst src) s = .next t ∧ load e.1 t = v.1 ∧
      t.z = (v.1 == 0#16) ∧ t.c = false ∧ ChangesOnlyAt e.1 [src, dst] s e.2 t

/-- 42_moves_and_call.md, 0001 CMOVEQ: with `Z` set it is MOV; with `Z` clear only the source is evaluated,
and the flags are kept, which is the spec's decision D14 (log 15). -/
def Obligations.CmoveqResult : Prop :=
  ∀ (dst src : Operand) (s : State), s.mem.wf = true →
    let v := evalSource src s
    let e := evalOperand dst v.2
    (s.z = true → ∃ t, exec (.cmoveq dst src) s = .next t ∧ load e.1 t = v.1 ∧
      t.z = (v.1 == 0#16) ∧ t.c = false ∧ ChangesOnlyAt e.1 [src, dst] s e.2 t) ∧
    (s.z = false → ∃ t, exec (.cmoveq dst src) s = .next t ∧ t.z = s.z ∧ t.c = s.c ∧
      StoresNothing [src] s v.2 t)

/-- 42_moves_and_call.md, 0010 CMOVLT: with `C` set it is MOV; with `C` clear only the source is evaluated,
and the flags are kept, which is the spec's decision D14 (log 15). -/
def Obligations.CmovltResult : Prop :=
  ∀ (dst src : Operand) (s : State), s.mem.wf = true →
    let v := evalSource src s
    let e := evalOperand dst v.2
    (s.c = true → ∃ t, exec (.cmovlt dst src) s = .next t ∧ load e.1 t = v.1 ∧
      t.z = (v.1 == 0#16) ∧ t.c = false ∧ ChangesOnlyAt e.1 [src, dst] s e.2 t) ∧
    (s.c = false → ∃ t, exec (.cmovlt dst src) s = .next t ∧ t.z = s.z ∧ t.c = s.c ∧
      StoresNothing [src] s v.2 t)

/-- 42_moves_and_call.md, 0011 CMOVGT: with `Z` and `C` both clear it is MOV; otherwise only the source is
evaluated, and the flags are kept, which is the spec's decision D14 (log 15). -/
def Obligations.CmovgtResult : Prop :=
  ∀ (dst src : Operand) (s : State), s.mem.wf = true →
    let v := evalSource src s
    let e := evalOperand dst v.2
    (s.z = false ∧ s.c = false → ∃ t, exec (.cmovgt dst src) s = .next t ∧ load e.1 t = v.1 ∧
      t.z = (v.1 == 0#16) ∧ t.c = false ∧ ChangesOnlyAt e.1 [src, dst] s e.2 t) ∧
    (s.z = true ∨ s.c = true → ∃ t, exec (.cmovgt dst src) s = .next t ∧ t.z = s.z ∧ t.c = s.c ∧
      StoresNothing [src] s v.2 t)

/-- 42_moves_and_call.md, 0100 CALL: the destination gets `x[7]` as it stands after both operands'
evaluation, `x[7]` the source's value; with destination R7 direct only the latter is left. The flags are the
spec's decision D15 (log 16), the value stored by `CALL @R7+` its decision D8 (log 18). -/
def Obligations.CallResult : Prop :=
  ∀ (dst src : Operand) (s : State), s.mem.wf = true →
    let v := evalSource src s
    let e := evalOperand dst v.2
    ∃ t, exec (.call dst src) s = .next t ∧ (e.1 ≠ .reg .r7 → load e.1 t = e.2.pc) ∧ t.pc = v.1 ∧
      t.z = (v.1 == 0#16) ∧ t.c = false ∧
      (∀ r, r ≠ .r7 → e.1 ≠ .reg r → t.getReg r = e.2.getReg r) ∧
      (∀ r, r ≠ .r7 → e.1 ≠ .reg r → src.modifies r = false → dst.modifies r = false → t.getReg r = s.getReg r) ∧
      (∀ a, e.1.covers a = false → t.mem.read a = s.mem.read a)

/-- 42_moves_and_call.md, 0100 CALL (corner cases): CALL with destination R7 direct is MOV to R7. -/
def Obligations.CallToInstructionPointerIsMov : Prop :=
  ∀ (src : Operand) (s : State), ∃ t,
    exec (.call ⟨.direct, .r7⟩ src) s = .next t ∧ exec (.mov ⟨.direct, .r7⟩ src) s = .next t

/-- 42_moves_and_call.md, 0100 CALL and Control transfer: after a call through the R6 stack, the return
`MOV R7, @-R6`, run in any state that still has the call's R6 and its return address in memory, goes to the
instruction after the call and leaves R6 as it was when the call pushed. -/
def Obligations.ReturnUndoesCall : Prop :=
  ∀ (src : Operand) (s u : State), s.mem.wf = true →
    let v := evalSource src s
    ∃ t, exec (.call ⟨.postinc, .r6⟩ src) s = .next t ∧ t.getReg .r6 = v.2.getReg .r6 + 2#16 ∧
      (u.getReg .r6 = t.getReg .r6 →
        u.mem.readWord (v.2.getReg .r6) = t.mem.readWord (v.2.getReg .r6) →
        ∃ w, exec (.mov ⟨.direct, .r7⟩ ⟨.predec, .r6⟩) u = .next w ∧ w.pc = v.2.pc ∧
          w.getReg .r6 = v.2.getReg .r6 ∧ ∀ r, r ≠ .r7 → r ≠ .r6 → w.getReg r = u.getReg r)

/-! ## CMP, ADD, SUB, AND, OR, XOR -/

/-- 43_compare_and_alu.md, 0101 CMP: the flags tell equal and unsigned less; nothing is stored. That the old
`C` is not subtracted is the spec's decision D9 (log 10). -/
def Obligations.CmpResult : Prop :=
  ∀ (dst src : Operand) (s : State),
    let v := evalSource src s
    let e := evalOperand dst v.2
    let d := load e.1 e.2
    ∃ t, exec (.cmp dst src) s = .next t ∧ t.z = (d == v.1) ∧ t.c = decide (d < v.1) ∧
      StoresNothing [src, dst] s e.2 t

/-- 43_compare_and_alu.md, 0110 ADD: `C` is the carry out of bit 15. That the old `C` is not added is the
spec's decision D9 (log 10). -/
def Obligations.AddResult : Prop :=
  ∀ (dst src : Operand) (s : State), s.mem.wf = true →
    let v := evalSource src s
    let e := evalOperand dst v.2
    let d := load e.1 e.2
    ∃ t, exec (.add dst src) s = .next t ∧ load e.1 t = d + v.1 ∧ t.z = (d + v.1 == 0#16) ∧
      t.c = decide (0xFFFF < d.toNat + v.1.toNat) ∧ ChangesOnlyAt e.1 [src, dst] s e.2 t

/-- 43_compare_and_alu.md, 0111 SUB: destination minus source, `C` the borrow. That the old `C` is not
subtracted is the spec's decision D9 (log 10). -/
def Obligations.SubResult : Prop :=
  ∀ (dst src : Operand) (s : State), s.mem.wf = true →
    let v := evalSource src s
    let e := evalOperand dst v.2
    let d := load e.1 e.2
    ∃ t, exec (.sub dst src) s = .next t ∧ load e.1 t = d - v.1 ∧ t.z = (d == v.1) ∧
      t.c = decide (d < v.1) ∧ ChangesOnlyAt e.1 [src, dst] s e.2 t

/-- 43_compare_and_alu.md, 1000 AND. That `C` is cleared is the spec's decision D13 (log 14). -/
def Obligations.AndResult : Prop :=
  ∀ (dst src : Operand) (s : State), s.mem.wf = true →
    let v := evalSource src s
    let e := evalOperand dst v.2
    let d := load e.1 e.2
    ∃ t, exec (.and dst src) s = .next t ∧ load e.1 t = d &&& v.1 ∧ t.z = (d &&& v.1 == 0#16) ∧
      t.c = false ∧ ChangesOnlyAt e.1 [src, dst] s e.2 t

/-- 43_compare_and_alu.md, 1001 OR. That `C` is cleared is the spec's decision D13 (log 14). -/
def Obligations.OrResult : Prop :=
  ∀ (dst src : Operand) (s : State), s.mem.wf = true →
    let v := evalSource src s
    let e := evalOperand dst v.2
    let d := load e.1 e.2
    ∃ t, exec (.or dst src) s = .next t ∧ load e.1 t = d ||| v.1 ∧ t.z = (d == 0#16 && v.1 == 0#16) ∧
      t.c = false ∧ ChangesOnlyAt e.1 [src, dst] s e.2 t

/-- 43_compare_and_alu.md, 1010 XOR. That `C` is cleared is the spec's decision D13 (log 14). -/
def Obligations.XorResult : Prop :=
  ∀ (dst src : Operand) (s : State), s.mem.wf = true →
    let v := evalSource src s
    let e := evalOperand dst v.2
    let d := load e.1 e.2
    ∃ t, exec (.xor dst src) s = .next t ∧ load e.1 t = d ^^^ v.1 ∧ t.z = (d == v.1) ∧
      t.c = false ∧ ChangesOnlyAt e.1 [src, dst] s e.2 t

/-- 43_compare_and_alu.md, 0111 SUB: SUB is CMP with a store: it ends in the state CMP ends in, flags
included, with the difference modulo `0x10000` stored to the destination's location. -/
def Obligations.SubIsCmpWithStore : Prop :=
  ∀ (dst src : Operand) (s : State),
    let v := evalSource src s
    let e := evalOperand dst v.2
    ∃ u, exec (.cmp dst src) s = .next u ∧
      exec (.sub dst src) s = .next (store e.1 (load e.1 e.2 - v.1) u)

/-- 40_operands.md section 4: when both operands name the same register the source is evaluated and loaded
first. For every register, R7 and so two immediates among them: what is stored through `@Rn+` from `Rn` is
the old value, a load through `@Rn+` into `Rn` overwrites the increment, an addition into `Rn` adds to the
incremented value, and of `@Rn+, @Rn+` the source is the lower word. When the increment happens is the
spec's decision D8 (log 18). -/
def Obligations.SourceIsEvaluatedFirst : Prop :=
  ∀ (r : Reg) (s : State), s.mem.wf = true →
    let a := s.getReg r
    (∃ t, exec (.mov ⟨.postinc, r⟩ ⟨.direct, r⟩) s = .next t ∧ t.mem.readWord a = a ∧ t.getReg r = a + 2#16) ∧
    (∃ t, exec (.mov ⟨.direct, r⟩ ⟨.postinc, r⟩) s = .next t ∧ t.getReg r = s.mem.readWord a ∧ t.mem = s.mem) ∧
    (∃ t, exec (.add ⟨.direct, r⟩ ⟨.postinc, r⟩) s = .next t ∧
      t.getReg r = a + 2#16 + s.mem.readWord a ∧ t.mem = s.mem) ∧
    (∃ t, exec (.add ⟨.postinc, r⟩ ⟨.postinc, r⟩) s = .next t ∧ t.getReg r = a + 4#16 ∧
      t.mem.readWord (a + 2#16) = s.mem.readWord (a + 2#16) + s.mem.readWord a ∧
      t.mem.readWord a = s.mem.readWord a)

/-- 43_compare_and_alu.md, 0101 CMP, with 42_moves_and_call.md, CMOVEQ to CMOVGT: after CMP of `d` with `v`,
CMOVEQ, CMOVLT and CMOVGT are MOV exactly when `d = v`, `d < v`, `d > v` unsigned, and otherwise only their
source is evaluated (the spec's decisions D9 and D14, logs 10 and 15). -/
def Obligations.ComparisonGovernsConditionalMoves : Prop :=
  ∀ (dst src : Operand) (s : State),
    let v := evalSource src s
    let e := evalOperand dst v.2
    let d := load e.1 e.2
    ∃ t, exec (.cmp dst src) s = .next t ∧
      ∀ dst' src' : Operand, ∃ moved, exec (.mov dst' src') t = .next moved ∧
        exec (.cmoveq dst' src') t = .next (if d = v.1 then moved else (evalSource src' t).2) ∧
        exec (.cmovlt dst' src') t = .next (if d < v.1 then moved else (evalSource src' t).2) ∧
        exec (.cmovgt dst' src') t = .next (if v.1 < d then moved else (evalSource src' t).2)

/-- 10_state.md section 3 and 43_compare_and_alu.md, Integer arithmetic laws: only the three conditional
moves read a flag: any other instruction gives the same whole state from whatever flags. It rests on the
spec's decision D9 (log 10) and, for every flag being written, D10 (log 11). -/
def Obligations.OnlyConditionalMovesReadFlags : Prop :=
  ∀ (i : Instr) (s : State) (z c : Bool), i.isConditional = false →
    ∃ t, exec i s = .next t ∧ exec i { s with z := z, c := c } = .next t

/-! ## The step -/

/-- R71: a fetch reads the byte at `x[7]` and adds 1 to it modulo `0x10000`; a step fetches once for format S
and twice for an assigned format D opcode, and only then executes. -/
def Obligations.StepFetchesByteByByte : Prop :=
  ∀ s : State,
    (fetch8 s).1 = s.mem.read s.pc ∧ (fetch8 s).2.pc.toNat = (s.pc.toNat + 1) % 0x10000 ∧
    (∀ r, r ≠ .r7 → (fetch8 s).2.getReg r = s.getReg r) ∧
    (fetch8 s).2.mem = s.mem ∧ (fetch8 s).2.z = s.z ∧ (fetch8 s).2.c = s.c ∧
    (isFormatD (fetch8 s).1 = false → ∃ i, decodeS (fetch8 s).1 = some i ∧ step s = exec i (fetch8 s).2) ∧
    (∀ finish, isFormatD (fetch8 s).1 = true → decodeD (fetch8 s).1 = some finish →
      step s = exec (finish (fetch8 (fetch8 s).2).1) (fetch8 (fetch8 s).2).2)

/-- 40_operands.md section 1: when the bytes at `x[7]` decode to an instruction, the step is that
instruction's meaning in the state with `x[7]` past its own bytes (one or two; its immediate words are passed
over by its operands). -/
def Obligations.StepRunsDecodedInstruction : Prop :=
  ∀ (s : State) (i : Instr) (rest : List Byte), decode (codeAt s) = .ok (i, rest) →
    step s = exec i (s.setPc (s.pc + BitVec.ofNat 16 (encode i).length))

/-- 60_exceptions.md section 1: the step completes whenever the first byte is below `0xEC`, and otherwise
raises `IllegalInstruction` with that byte and the address it was fetched from. It rests on the spec's
decisions D17 and D18 (logs 19 and 20). -/
def Obligations.StepFaultsExactlyOnUnassigned : Prop :=
  ∀ s : State,
    (s.mem.read s.pc < 0xEC#8 → ∃ t, step s = .next t) ∧
    (0xEC#8 ≤ s.mem.read s.pc → step s = .fault (.illegalInstruction (s.mem.read s.pc) s.pc))

/-- 20_memory.md section 1, as the model holds memory: every step keeps the memory in its canonical form,
which is the model's own convention (log 2). -/
def Obligations.StepKeepsMemoryCanonical : Prop :=
  ∀ s t : State, s.mem.wf = true → step s = .next t → t.mem.wf = true

/-- The model's own reset state (logs 1 and 2) has its memory in canonical form. -/
def Obligations.ResetMemoryCanonical : Prop :=
  State.reset.mem.wf = true

/-- 10_state.md section 6, as the model holds memory (log 2): every assignment of bytes to the 65536
addresses is one memory in canonical form, and only one. -/
def Obligations.EveryMemoryHasOneForm : Prop :=
  ∀ f : Word → Byte, ∃ m : Memory, (m.wf = true ∧ ∀ a, m.read a = f a) ∧
    ∀ m' : Memory, m'.wf = true → (∀ a, m'.read a = f a) → m' = m

/-- 70_reset_and_hazards.md section 1: a launch takes every register, both flags and every byte of memory as
given, and starts at the launch value of R7. Launch state as a parameter is the spec's decision D19 (log 30). -/
def Obligations.LaunchTakesItsParameters : Prop :=
  ∀ (initR : Reg → Word) (initZ initC : Bool) (initMem : Word → Byte),
    (∀ r, (launch initR initZ initC initMem).getReg r = initR r) ∧
    (launch initR initZ initC initMem).pc = initR .r7 ∧
    (launch initR initZ initC initMem).z = initZ ∧ (launch initR initZ initC initMem).c = initC ∧
    (∀ a, (launch initR initZ initC initMem).mem.read a = initMem a) ∧
    (launch initR initZ initC initMem).mem.wf = true

/-- The model's choice (logs 1 and 2; the spec gives no reset value): the reset state is the launch with
every register, flag and byte zero. -/
def Obligations.ResetIsAllZeroLaunch : Prop :=
  State.reset = launch (fun _ => 0) false false (fun _ => 0)

/-- 30_encoding.md section 3: where an instruction is no CALL, its operands touch R7 at most as immediates, and a
conditional move has no immediate destination, a step moves `x[7]` by the instruction's length. -/
def Obligations.StepAdvancesByLength : Prop :=
  ∀ (s t : State) (i : Instr) (rest : List Byte), decode (codeAt s) = .ok (i, rest) → step s = .next t →
    i.isCall = false → (∀ o ∈ i.operands, o.reg = .r7 → o.mode = .postinc) →
    (i.isConditional = true → ∀ dst ∈ i.operands.getLast?, dst.isImmediate = false) →
    t.pc = s.pc + BitVec.ofNat 16 i.length

/-- 10_state.md sections 1 and 2: a step changes no register that its instruction does not name, but R7. -/
def Obligations.StepChangesOnlyNamedRegisters : Prop :=
  ∀ (s t : State) (i : Instr) (rest : List Byte) (r : Reg), decode (codeAt s) = .ok (i, rest) →
    step s = .next t → r ≠ .r7 → (∀ o ∈ i.operands, o.reg ≠ r) → t.getReg r = s.getReg r

/-- 41_single_operand.md, 000 INC, with 20_memory.md section 8: `INC #k` increments the constant in the code
itself, and execution goes on after it. -/
def Obligations.IncImmediateModifiesItsCode : Prop :=
  ∀ s : State, s.mem.wf = true → s.mem.read s.pc = 0x17#8 →
    ∃ t, step s = .next t ∧ t.mem.readWord (s.pc + 1#16) = s.mem.readWord (s.pc + 1#16) + 1#16 ∧
      t.pc = s.pc + 3#16 ∧ (∀ r, r ≠ .r7 → t.getReg r = s.getReg r) ∧
      (∀ a, a ≠ s.pc + 1#16 → a ≠ s.pc + 2#16 → t.mem.read a = s.mem.read a)

/-- 20_memory.md sections 2 and 8: a fetch from a byte just stored reads the new byte. It is the spec's
decision D21 (log 23); which of the stored word's bytes is the low one is the meaning of little endian, general
knowledge (log 26). -/
def Obligations.FetchSeesStores : Prop :=
  ∀ (s : State) (a v : Word), s.mem.wf = true →
    (fetch8 ((store (.mem a) v s).setPc a)).1 = v.extractLsb' 0 8 ∧
    (fetch8 ((store (.mem a) v s).setPc (a + 1#16))).1 = v.extractLsb' 8 8

/-- 42_moves_and_call.md, Control transfer: jump, relative branch and the three conditional branches, with
the word `k` that follows the instruction's two bytes. The untaken branches' kept flags are the spec's
decision D14 (log 15). -/
def Obligations.ControlTransferIdioms : Prop :=
  ∀ s : State,
    let k := s.mem.readWord (s.pc + 2#16)
    let branch (b0 : Byte) (target : Word) : Prop :=
      s.mem.read s.pc = b0 → s.mem.read (s.pc + 1#16) = 0xF7#8 →
        ∃ t, step s = .next t ∧ t.pc = target ∧ (∀ r, r ≠ .r7 → t.getReg r = s.getReg r) ∧ t.mem = s.mem
    branch 0xC0#8 k ∧ branch 0xD8#8 (s.pc + 4#16 + k) ∧
    branch 0xC4#8 (if s.z then k else s.pc + 4#16) ∧ branch 0xC8#8 (if s.c then k else s.pc + 4#16) ∧
    branch 0xCC#8 (if !s.z && !s.c then k else s.pc + 4#16)

/-- 42_moves_and_call.md, 0100 CALL (example): the canonical call `D2 D7 lo hi` pushes the address after its
immediate at R6, moves R6 up by 2 and goes to the immediate. -/
def Obligations.CanonicalCallStep : Prop :=
  ∀ s : State, s.mem.wf = true → s.mem.read s.pc = 0xD2#8 → s.mem.read (s.pc + 1#16) = 0xD7#8 →
    ∃ t, step s = .next t ∧ t.pc = s.mem.readWord (s.pc + 2#16) ∧
      t.mem.readWord (s.getReg .r6) = s.pc + 4#16 ∧ t.getReg .r6 = s.getReg .r6 + 2#16 ∧
      (∀ r, r ≠ .r6 → r ≠ .r7 → t.getReg r = s.getReg r) ∧
      (∀ a, a ≠ s.getReg .r6 → a ≠ s.getReg .r6 + 1#16 → t.mem.read a = s.mem.read a)

/-! ## Memory accesses -/

/-- 20_memory.md sections 4 and 6: the exact list of a step's accesses, in order: the fetches at `x[7]` and,
for format D, after it; the source's word read; the destination's word read, written, or both, at the address
its evaluation after the source gives; the widths of each; and one fetch alone for an unassigned first byte.
That MOV, a taken CMOVxx and CALL do not read their destination and CMP does not write it is the spec's
decision D16 (log 17), the untaken CMOVxx its decision D14 (log 15). -/
def Obligations.AccessesComeInOrder : Prop :=
  (∀ r k, (Loc.reg r).access k = []) ∧ (∀ a k, (Loc.mem a).access k = [⟨k, a⟩]) ∧
  (∀ a, Access.bytes ⟨.fetch, a⟩ = [a] ∧ Access.bytes ⟨.read, a⟩ = [a, a + 1#16] ∧
    Access.bytes ⟨.write, a⟩ = [a, a + 1#16]) ∧
  (∀ s : State, 0xEC#8 ≤ s.mem.read s.pc → stepAccesses s = [⟨.fetch, s.pc⟩]) ∧
  ∀ (s : State) (i : Instr) (rest : List Byte), decode (codeAt s) = .ok (i, rest) →
    (∀ o : Operand, i ∈ [.inc o, .dec o, .neg o, .not o, .lsh o, .rsh o] →
      let l := (evalOperand o (s.setPc (s.pc + 1#16))).1
      stepAccesses s = [⟨.fetch, s.pc⟩] ++ l.access .read ++ l.access .write) ∧
    ∀ dst src : Operand,
      let fetched := s.setPc (s.pc + 2#16)
      let ls := (evalOperand src fetched).1
      let ld := (evalOperand dst (evalSource src fetched).2).1
      let first := [⟨.fetch, s.pc⟩, ⟨.fetch, s.pc + 1#16⟩] ++ ls.access .read
      (i ∈ [.mov dst src, .call dst src] → stepAccesses s = first ++ ld.access .write) ∧
      (i = .cmoveq dst src → stepAccesses s = first ++ if s.z then ld.access .write else []) ∧
      (i = .cmovlt dst src → stepAccesses s = first ++ if s.c then ld.access .write else []) ∧
      (i = .cmovgt dst src → stepAccesses s = first ++ if !s.z && !s.c then ld.access .write else []) ∧
      (i = .cmp dst src → stepAccesses s = first ++ ld.access .read) ∧
      (i ∈ [.add dst src, .sub dst src, .and dst src, .or dst src, .xor dst src] →
        stepAccesses s = first ++ ld.access .read ++ ld.access .write)

/-- 20_memory.md section 4: a step leaves every byte alone that is not in one of its write accesses. -/
def Obligations.StepWritesOnlyItsAccesses : Prop :=
  ∀ (s t : State) (a : Word), step s = .next t →
    (∀ x ∈ stepAccesses s, x.kind = .write → a ∉ x.bytes) → t.mem.read a = s.mem.read a

/-- 20_memory.md sections 4 and 6, 10_state.md section 7: nothing outside the registers, the flags and the
bytes a step fetches and reads decides what it does: two states that agree on those make the same accesses,
and either raise the same fault or end with the same registers, flags and written bytes. -/
def Obligations.StepDependsOnlyOnItsAccesses : Prop :=
  ∀ s s' : State, s.mem.wf = true → s'.mem.wf = true → s.regs = s'.regs → s.z = s'.z → s.c = s'.c →
    (∀ x ∈ stepAccesses s, x.kind ≠ .write → ∀ a ∈ x.bytes, s.mem.read a = s'.mem.read a) →
    stepAccesses s' = stepAccesses s ∧
    ((∃ r, step s = .fault r ∧ step s' = .fault r) ∨
      ∃ t t', step s = .next t ∧ step s' = .next t' ∧ t.regs = t'.regs ∧ t.z = t'.z ∧ t.c = t'.c ∧
        ∀ x ∈ stepAccesses s, x.kind = .write → ∀ a ∈ x.bytes, t.mem.read a = t'.mem.read a)

/-- 20_memory.md section 1: a machine with less memory refuses a step that would access a byte at or above
its end, naming such a byte, and otherwise takes the same step; with 65536 bytes it is the machine itself. A
run in it is the machine's own run or is refused. It is the spec's decision D3 (log 6). -/
def Obligations.SmallMemoryRefuses : Prop :=
  ∀ (memBytes : Nat) (s : State),
    stepIn 65536 s = step s ∧
    ((∀ x ∈ stepAccesses s, ∀ a ∈ x.bytes, a.toNat < memBytes) → stepIn memBytes s = step s) ∧
    ((∃ x ∈ stepAccesses s, ∃ a ∈ x.bytes, memBytes ≤ a.toNat) →
      ∃ x ∈ stepAccesses s, ∃ a ∈ x.bytes, memBytes ≤ a.toNat ∧
        stepIn memBytes s = .refused (.outsideMemory memBytes a)) ∧
    (∀ (halt : State → Bool) (n : Nat), runUntil memBytes halt n s = runUntil 65536 halt n s ∨
      ∃ a, memBytes ≤ a.toNat ∧ runUntil memBytes halt n s = .refused (.outsideMemory memBytes a))

/-! ## Runs -/

/-- 70_reset_and_hazards.md section 3, with 20_memory.md section 1: a run ends where `HALT` holds, or faults,
or diverges, or, with fewer than 65536 bytes of memory only, is refused for a byte outside; exactly one of
these. `HALT` as a parameter is the spec's decision D20 (log 22), `MEM_BYTES` its decision D3 (log 6). -/
def Obligations.RunHasExactlyOneShape : Prop :=
  ∀ (memBytes : Nat) (halt : State → Bool) (s : State),
    let ends := ∃ n t, runUntil memBytes halt n s = .ended t
    let faults := ∃ n r, runUntil memBytes halt n s = .faulted r
    let refuses := ∃ n r, runUntil memBytes halt n s = .refused r
    let diverges := Diverges memBytes halt s
    (ends ∨ faults ∨ refuses ∨ diverges) ∧
    ¬(ends ∧ faults) ∧ ¬(ends ∧ refuses) ∧ ¬(ends ∧ diverges) ∧
    ¬(faults ∧ refuses) ∧ ¬(faults ∧ diverges) ∧ ¬(refuses ∧ diverges) ∧
    (65536 ≤ memBytes → ¬refuses) ∧
    ∀ n r, runUntil memBytes halt n s = .refused r → ∃ a, memBytes ≤ a.toNat ∧ r = .outsideMemory memBytes a

/-- 70_reset_and_hazards.md section 3: `HALT` is tested before each step: where it holds no step is taken,
where it does not a step is, whose fault or refusal ends the run, and a run that has ended stays ended in the
same state, in which `HALT` holds. `HALT` as a parameter is the spec's decision D20 (log 22), `MEM_BYTES` its
decision D3 (log 6). -/
def Obligations.HaltIsTestedBeforeEachStep : Prop :=
  ∀ (memBytes : Nat) (halt : State → Bool) (n : Nat) (s t : State),
    (halt s = true → runUntil memBytes halt n s = .ended s) ∧
    (halt s = false → runUntil memBytes halt 0 s = .running s) ∧
    (halt s = false → stepIn memBytes s = .next t →
      runUntil memBytes halt (n + 1) s = runUntil memBytes halt n t) ∧
    (∀ r, halt s = false → stepIn memBytes s = .fault r → runUntil memBytes halt (n + 1) s = .faulted r) ∧
    (∀ r, halt s = false → stepIn memBytes s = .refused r → runUntil memBytes halt (n + 1) s = .refused r) ∧
    (runUntil memBytes halt n s = .ended t → halt t = true ∧ ∀ k, runUntil memBytes halt (n + k) s = .ended t)
end

