-- ==== Sys2Proof/Laws/Access.lean ====
section
/-! SUPPORT. What the search for an access outside a smaller memory and the step guarded by it can do
(spec/20_memory.md rule R32). -/

namespace Sys2Proof.Machine

/-- The byte found is one that the step accesses, and lies outside. -/
theorem firstOutside_some {memBytes : Nat} {s : State} {a : Word} (h : firstOutside memBytes s = some a) :
    memBytes ≤ a.toNat ∧ ∃ x ∈ stepAccesses s, a ∈ x.bytes :=
  ⟨by simpa using List.find?_some h, List.mem_flatMap.1 (List.mem_of_find?_eq_some h)⟩

/-- None is found exactly when every byte the step accesses lies inside. -/
theorem firstOutside_none {memBytes : Nat} {s : State} :
    firstOutside memBytes s = none ↔ ∀ x ∈ stepAccesses s, ∀ a ∈ x.bytes, a.toNat < memBytes := by
  rw [firstOutside, List.find?_eq_none]
  exact ⟨fun h x hx a ha => by simpa using h a (List.mem_flatMap.2 ⟨x, hx, ha⟩),
    fun h a ha => by obtain ⟨x, hx, ha⟩ := List.mem_flatMap.1 ha; simpa using h x hx a ha⟩

/-- R32: all that a guarded step can do: refuse a byte outside, or take the step. -/
theorem stepIn_cases (memBytes : Nat) (s : State) :
    (∃ a, firstOutside memBytes s = some a ∧ stepIn memBytes s = .refused (.outsideMemory memBytes a)) ∨
      (firstOutside memBytes s = none ∧ stepIn memBytes s = step s) := by
  cases h : firstOutside memBytes s with
  | some a => exact .inl ⟨a, rfl, by simp [stepIn, h]⟩
  | none => exact .inr ⟨rfl, by simp [stepIn, h]⟩

end Sys2Proof.Machine
end

