-- ==== Sys2Proof/Laws/Memory.lean ====
section
/-! SUPPORT. What the memory operations do, and that each keeps the canonical form. -/

namespace Sys2Proof.Machine

/-! ## Lists of cells -/

theorem cellsWf_cons {low k : Nat} {v : Byte} {rest : List Host.Cell} :
    cellsWf low ((k, v) :: rest) = true ↔
      low ≤ k ∧ k < Config.memBytes ∧ v ≠ Config.unlistedByte ∧ cellsWf (k + 1) rest = true := by
  simp [cellsWf, and_assoc]

theorem cellsWf_mono {low low' : Nat} {cs : List Host.Cell} (hle : low' ≤ low) (h : cellsWf low cs = true) :
    cellsWf low' cs = true := by
  cases cs with
  | nil => rfl
  | cons p rest =>
    obtain ⟨k, v⟩ := p
    rw [cellsWf_cons] at h ⊢
    exact ⟨hle.trans h.1, h.2⟩

/-- Below its lowest address a canonical list holds nothing. -/
theorem findByte_below {low a : Nat} {cs : List Host.Cell} (h : cellsWf low cs = true) (ha : a < low) :
    findByte cs a = none := by
  induction cs generalizing low with
  | nil => rfl
  | cons p rest ih =>
    obtain ⟨k, v⟩ := p
    rw [cellsWf_cons] at h
    have hk : k ≠ a := by omega
    simp only [findByte, hk, if_false]
    exact ih h.2.2.2 (by omega)

theorem findByte_listed {low a : Nat} {cs : List Host.Cell} {v : Byte} (h : cellsWf low cs = true)
    (hf : findByte cs a = some v) : v ≠ Config.unlistedByte := by
  induction cs generalizing low with
  | nil => simp [findByte] at hf
  | cons p rest ih =>
    obtain ⟨k, w⟩ := p
    rw [cellsWf_cons] at h
    by_cases hk : k = a
    · simp only [findByte, hk, if_true, Option.some.injEq] at hf
      exact hf ▸ h.2.2.1
    · simp only [findByte, hk, if_false] at hf
      exact ih h.2.2.2 hf

theorem findByte_putByte_self {low : Nat} (cs : List Host.Cell) (a : Nat) (b : Byte) (h : cellsWf low cs = true) :
    (findByte (putByte cs a b) a).getD Config.unlistedByte = b := by
  induction cs generalizing low with
  | nil => by_cases hb : b = Config.unlistedByte <;> simp [putByte, findByte, hb]
  | cons p rest ih =>
    obtain ⟨k, v⟩ := p
    have hw := cellsWf_cons.1 h
    by_cases h1 : a < k
    · by_cases hb : b = Config.unlistedByte
      · have hne : k ≠ a := by omega
        simp [putByte, findByte, h1, hb, hne, findByte_below hw.2.2.2 (by omega : a < k + 1)]
      · simp [putByte, findByte, h1, hb]
    · by_cases h2 : a = k
      · by_cases hb : b = Config.unlistedByte
        · simp [putByte, h2, hb, findByte_below hw.2.2.2 (by omega : k < k + 1)]
        · simp [putByte, findByte, h2, hb]
      · have hne : k ≠ a := fun e => h2 e.symm
        simp only [putByte, h1, h2, if_false, findByte, hne]
        exact ih hw.2.2.2

theorem findByte_putByte_other (cs : List Host.Cell) {a a' : Nat} (b : Byte) (hne : a' ≠ a) :
    findByte (putByte cs a b) a' = findByte cs a' := by
  have hne' : a ≠ a' := fun e => hne e.symm
  induction cs with
  | nil => by_cases hb : b = Config.unlistedByte <;> simp [putByte, findByte, hb, hne']
  | cons p rest ih =>
    obtain ⟨k, v⟩ := p
    by_cases h1 : a < k
    · by_cases hb : b = Config.unlistedByte <;> simp [putByte, findByte, h1, hb, hne']
    · by_cases h2 : a = k
      · subst h2
        by_cases hb : b = Config.unlistedByte <;> simp [putByte, findByte, hb, hne']
      · simp only [putByte, h1, h2, if_false, findByte, ih]

theorem putByte_keeps_wf {low : Nat} (cs : List Host.Cell) {a : Nat} (b : Byte) (h : cellsWf low cs = true)
    (hlow : low ≤ a) (ha : a < Config.memBytes) : cellsWf low (putByte cs a b) = true := by
  induction cs generalizing low with
  | nil =>
    by_cases hb : b = Config.unlistedByte
    · simp [putByte, hb, cellsWf]
    · simp [putByte, hb, cellsWf, hlow, ha]
  | cons p rest ih =>
    obtain ⟨k, v⟩ := p
    have hw := cellsWf_cons.1 h
    by_cases h1 : a < k
    · by_cases hb : b = Config.unlistedByte
      · simpa [putByte, h1, hb] using h
      · simp only [putByte, h1, hb, if_true, if_false, cellsWf_cons]
        exact ⟨hlow, ha, hb, by omega, hw.2.1, hw.2.2.1, hw.2.2.2⟩
    · by_cases h2 : a = k
      · by_cases hb : b = Config.unlistedByte
        · simp only [putByte, h2, hb, lt_irrefl, if_true, if_false]
          exact cellsWf_mono (by omega) hw.2.2.2
        · simp only [putByte, h2, hb, lt_irrefl, if_true, if_false, cellsWf_cons]
          exact ⟨by omega, by omega, hb, hw.2.2.2⟩
      · simp only [putByte, h1, h2, if_false, cellsWf_cons]
        exact ⟨hw.1, hw.2.1, hw.2.2.1, ih hw.2.2.2 (by omega)⟩

theorem findByte_head {k : Nat} {v : Byte} {rest : List Host.Cell} : findByte ((k, v) :: rest) k = some v := by
  simp [findByte]

/-- Two canonical lists that hold the same bytes are the same list. -/
theorem cells_ext {low : Nat} {cs cs' : List Host.Cell} (h : cellsWf low cs = true) (h' : cellsWf low cs' = true)
    (heq : ∀ a, findByte cs a = findByte cs' a) : cs = cs' := by
  induction cs generalizing low cs' with
  | nil =>
    cases cs' with
    | nil => rfl
    | cons p rest => have := heq p.1; simp [findByte] at this
  | cons p rest ih =>
    obtain ⟨k, v⟩ := p
    cases cs' with
    | nil => have := heq k; simp [findByte] at this
    | cons q rest' =>
      obtain ⟨k', v'⟩ := q
      have hw := cellsWf_cons.1 h
      have hw' := cellsWf_cons.1 h'
      have hk : k = k' := by
        rcases Nat.lt_trichotomy k k' with hlt | he | hlt
        · have := heq k
          rw [findByte_head, findByte_below (cellsWf_cons.2 ⟨le_refl k', hw'.2⟩) hlt] at this
          cases this
        · exact he
        · have := heq k'
          rw [findByte_head, findByte_below (cellsWf_cons.2 ⟨le_refl k, hw.2⟩) hlt] at this
          cases this
      subst hk
      have hv : v = v' := by simpa [findByte] using heq k
      subst hv
      refine congrArg _ (ih hw.2.2.2 hw'.2.2.2 fun a => ?_)
      by_cases hka : k = a
      · subst hka
        rw [findByte_below hw.2.2.2 (by omega), findByte_below hw'.2.2.2 (by omega)]
      · simpa [findByte, hka] using heq a

/-! ## Bytes of memory -/

theorem word_lt_memBytes (a : Word) : a.toNat < Config.memBytes := a.isLt

/-- A byte read back after its own write is the byte written. -/
theorem Memory.read_write_self (m : Memory) (a : Word) (b : Byte) (h : m.wf = true) : (m.write a b).read a = b :=
  findByte_putByte_self m.cells a.toNat b h

/-- A byte write leaves every other byte alone. -/
@[simp] theorem Memory.read_write_other (m : Memory) {a a' : Word} (b : Byte) (h : a' ≠ a) :
    (m.write a b).read a' = m.read a' := by
  have hne : a'.toNat ≠ a.toNat := fun e => h (BitVec.eq_of_toNat_eq e)
  simp [Memory.read, Memory.write, findByte_putByte_other _ _ hne]

/-- A byte write keeps the canonical form. -/
theorem Memory.write_wf (m : Memory) (a : Word) (b : Byte) (h : m.wf = true) : (m.write a b).wf = true :=
  putByte_keeps_wf m.cells b h (Nat.zero_le _) (word_lt_memBytes a)

/-- A word write keeps the canonical form. -/
theorem Memory.writeWord_wf (m : Memory) (a v : Word) (h : m.wf = true) : (m.writeWord a v).wf = true :=
  Memory.write_wf _ _ _ (Memory.write_wf m _ _ h)

/-- A write of several bytes keeps the canonical form. -/
theorem Memory.writeBytes_wf (m : Memory) (a : Word) (bs : List Byte) (h : m.wf = true) :
    (m.writeBytes a bs).wf = true := by
  induction bs generalizing m a with
  | nil => exact h
  | cons b bs ih => exact ih _ _ (Memory.write_wf m a b h)

theorem succ_ne (a : Word) : a + 1#16 ≠ a := by
  intro h
  have := congrArg BitVec.toNat h
  have hlt := a.isLt
  simp only [BitVec.toNat_add, BitVec.toNat_ofNat] at this
  omega

/-- R33: what a word write leaves at every byte. -/
theorem Memory.read_writeWord (m : Memory) (a v a' : Word) (h : m.wf = true) :
    (m.writeWord a v).read a' =
      if a' = a + 1#16 then v.extractLsb' 8 8 else if a' = a then v.extractLsb' 0 8 else m.read a' := by
  have h1 := Memory.write_wf m a (v.extractLsb' 0 8) h
  by_cases e1 : a' = a + 1#16
  · subst e1; simp [Memory.writeWord, Memory.read_write_self _ _ _ h1]
  · rw [Memory.writeWord, Memory.read_write_other _ _ e1, if_neg e1]
    by_cases e0 : a' = a
    · subst e0; rw [if_pos rfl, Memory.read_write_self _ _ _ h]
    · rw [if_neg e0, Memory.read_write_other _ _ e0]

/-- A word write leaves every byte but its two alone, in canonical form or not. -/
theorem Memory.read_writeWord_other (m : Memory) {a a' : Word} (v : Word) (h0 : a' ≠ a) (h1 : a' ≠ a + 1#16) :
    (m.writeWord a v).read a' = m.read a' := by
  rw [Memory.writeWord, Memory.read_write_other _ _ h1, Memory.read_write_other _ _ h0]

theorem word_of_bytes (v : Word) : v.extractLsb' 8 8 ++ v.extractLsb' 0 8 = v := by
  ext i hi
  simp only [BitVec.getElem_append, BitVec.getElem_extractLsb']
  split
  · rw [Nat.zero_add]; exact BitVec.getLsbD_eq_getElem hi
  · rw [show 8 + (i - 8) = i by omega]; exact BitVec.getLsbD_eq_getElem hi

/-- R33: a word read back after its own write is the word written. -/
theorem Memory.readWord_writeWord_self (m : Memory) (a v : Word) (h : m.wf = true) :
    (m.writeWord a v).readWord a = v := by
  have hne : a ≠ a + 1#16 := fun e => succ_ne a e.symm
  rw [Memory.readWord, Memory.read_writeWord _ _ _ _ h, Memory.read_writeWord _ _ _ _ h, if_pos rfl, if_neg hne,
    if_pos rfl, word_of_bytes]

/-- Two canonical memories that read the same everywhere are equal. -/
theorem Memory.ext_read {m m' : Memory} (h : m.wf = true) (h' : m'.wf = true) (heq : ∀ a, m.read a = m'.read a) :
    m = m' := by
  have key : ∀ n : Nat, findByte m.cells n = findByte m'.cells n := by
    have bounded : ∀ (cs : List Host.Cell) (low n : Nat), cellsWf low cs = true → Config.memBytes ≤ n →
        findByte cs n = none := by
      intro cs
      induction cs with
      | nil => intros; rfl
      | cons p rest ih =>
        intro low n hw hn
        obtain ⟨k, v⟩ := p
        have hw := cellsWf_cons.1 hw
        have hk : k ≠ n := by omega
        simp only [findByte, hk, if_false]
        exact ih _ _ hw.2.2.2 hn
    intro n
    by_cases hn : n < Config.memBytes
    · have hr := heq (BitVec.ofNat 16 n)
      have hmod : n % 65536 = n := Nat.mod_eq_of_lt hn
      simp only [Memory.read, BitVec.toNat_ofNat, Nat.reducePow, hmod] at hr
      cases h1 : findByte m.cells n with
      | none =>
        cases h2 : findByte m'.cells n with
        | none => rfl
        | some w => rw [h1, h2] at hr; exact absurd hr.symm (findByte_listed h' h2)
      | some v =>
        cases h2 : findByte m'.cells n with
        | none => rw [h1, h2] at hr; exact absurd hr (findByte_listed h h1)
        | some w => rw [h1, h2] at hr; exact congrArg some hr
    · rw [bounded _ 0 n h (by omega), bounded _ 0 n h' (by omega)]
  cases m; cases m'
  exact congrArg Memory.mk (cells_ext h h' key)

/-! ## Launch -/

theorem cellsFrom_wf (f : Word → Byte) (low n : Nat) (h : low + n ≤ Config.memBytes) :
    cellsWf low (cellsFrom f low n) = true := by
  induction n generalizing low with
  | zero => rfl
  | succ n ih =>
    have hrest := ih (low + 1) (by omega)
    by_cases hb : f (BitVec.ofNat 16 low) = Config.unlistedByte
    · simpa [cellsFrom, hb] using cellsWf_mono (Nat.le_succ low) hrest
    · simp only [cellsFrom, hb, if_false, cellsWf_cons]
      exact ⟨le_refl _, by omega, hb, hrest⟩

theorem findByte_cellsFrom (f : Word → Byte) (low n a : Nat) (h : low + n ≤ Config.memBytes) (h1 : low ≤ a)
    (h2 : a < low + n) :
    (findByte (cellsFrom f low n) a).getD Config.unlistedByte = f (BitVec.ofNat 16 a) := by
  induction n generalizing low with
  | zero => omega
  | succ n ih =>
    by_cases hla : low = a
    · subst hla
      by_cases hb : f (BitVec.ofNat 16 low) = Config.unlistedByte
      · simp only [cellsFrom, hb, if_true]
        rw [findByte_below (cellsFrom_wf f (low + 1) n (by omega)) (Nat.lt_succ_self low)]
        rfl
      · simp [cellsFrom, hb, findByte]
    · by_cases hb : f (BitVec.ofNat 16 low) = Config.unlistedByte
      · simp only [cellsFrom, hb, if_true]
        exact ih (low + 1) (by omega) (by omega) (by omega)
      · simp only [cellsFrom, hb, if_false, findByte, hla]
        exact ih (low + 1) (by omega) (by omega) (by omega)

/-- The memory a launch is given is in canonical form. -/
theorem Memory.ofFn_wf (f : Word → Byte) : (Memory.ofFn f).wf = true :=
  cellsFrom_wf f 0 Config.memBytes (by simp)

end Sys2Proof.Machine
end

