-- ==== Sys2Proof/Laws/State.lean ====
section
/-! SUPPORT. One lemma per field per update of the state, so that no later proof unfolds a record update. -/

namespace Sys2Proof.Machine

/-! ## Registers -/

@[simp] theorem Registers.get_set_self (rs : Registers) (r : Reg) (v : Word) : (rs.set r v).get r = v := by
  cases r <;> rfl

@[simp] theorem Registers.get_set_other (rs : Registers) {r r' : Reg} (v : Word) (h : r' ≠ r) :
    (rs.set r v).get r' = rs.get r' := by
  cases r <;> cases r' <;> first | rfl | exact absurd rfl h

theorem Registers.get_set (rs : Registers) (r r' : Reg) (v : Word) :
    (rs.set r v).get r' = if r' = r then v else rs.get r' := by
  by_cases h : r' = r
  · subst h; simp
  · simp [h]

@[simp] theorem Registers.set_set (rs : Registers) (r : Reg) (v w : Word) : (rs.set r v).set r w = rs.set r w := by
  cases r <;> rfl

@[simp] theorem Registers.set_get (rs : Registers) (r : Reg) : rs.set r (rs.get r) = rs := by
  cases r <;> rfl

/-- Two register sets that read the same everywhere are equal. -/
theorem Registers.ext_get {rs rs' : Registers} (h : ∀ r, rs.get r = rs'.get r) : rs = rs' := by
  cases rs; cases rs'
  have h0 := h .r0; have h1 := h .r1; have h2 := h .r2; have h3 := h .r3
  have h4 := h .r4; have h5 := h .r5; have h6 := h .r6; have h7 := h .r7
  simp only [Registers.get] at h0 h1 h2 h3 h4 h5 h6 h7
  simp [h0, h1, h2, h3, h4, h5, h6, h7]

/-! ## Register writes -/

@[simp] theorem State.setReg_regs (s : State) (r : Reg) (v : Word) : (s.setReg r v).regs = s.regs.set r v := rfl
@[simp] theorem State.setReg_z (s : State) (r : Reg) (v : Word) : (s.setReg r v).z = s.z := rfl
@[simp] theorem State.setReg_c (s : State) (r : Reg) (v : Word) : (s.setReg r v).c = s.c := rfl
@[simp] theorem State.setReg_mem (s : State) (r : Reg) (v : Word) : (s.setReg r v).mem = s.mem := rfl

@[simp] theorem State.getReg_setReg_self (s : State) (r : Reg) (v : Word) : (s.setReg r v).getReg r = v := by
  simp [State.getReg]

@[simp] theorem State.getReg_setReg_other (s : State) {r r' : Reg} (v : Word) (h : r' ≠ r) :
    (s.setReg r v).getReg r' = s.getReg r' := by
  simp [State.getReg, h]

theorem State.getReg_setReg (s : State) (r r' : Reg) (v : Word) :
    (s.setReg r v).getReg r' = if r' = r then v else s.getReg r' :=
  Registers.get_set s.regs r r' v

@[simp] theorem State.setReg_setReg (s : State) (r : Reg) (v w : Word) :
    (s.setReg r v).setReg r w = s.setReg r w := by
  simp [State.setReg]

@[simp] theorem State.setPc_regs (s : State) (t : Word) : (s.setPc t).regs = s.regs.set .r7 t := rfl
@[simp] theorem State.setPc_z (s : State) (t : Word) : (s.setPc t).z = s.z := rfl
@[simp] theorem State.setPc_c (s : State) (t : Word) : (s.setPc t).c = s.c := rfl
@[simp] theorem State.setPc_mem (s : State) (t : Word) : (s.setPc t).mem = s.mem := rfl
@[simp] theorem State.pc_setPc (s : State) (t : Word) : (s.setPc t).pc = t := rfl

theorem State.pc_eq_getReg (s : State) : s.pc = s.getReg .r7 := rfl
theorem State.setPc_eq_setReg (s : State) (t : Word) : s.setPc t = s.setReg .r7 t := rfl

/-! ## Memory updates -/

@[simp] theorem State.setMem_regs (s : State) (m : Memory) : (s.setMem m).regs = s.regs := rfl
@[simp] theorem State.setMem_z (s : State) (m : Memory) : (s.setMem m).z = s.z := rfl
@[simp] theorem State.setMem_c (s : State) (m : Memory) : (s.setMem m).c = s.c := rfl
@[simp] theorem State.setMem_mem (s : State) (m : Memory) : (s.setMem m).mem = m := rfl
@[simp] theorem State.setMem_getReg (s : State) (m : Memory) (r : Reg) : (s.setMem m).getReg r = s.getReg r := rfl
@[simp] theorem State.setMem_pc (s : State) (m : Memory) : (s.setMem m).pc = s.pc := rfl

/-! ## Flags -/

@[simp] theorem setFlags_regs (n : Int) (s : State) : (setFlags n s).regs = s.regs := rfl
@[simp] theorem setFlags_z (n : Int) (s : State) : (setFlags n s).z = zeroFlag n := rfl
@[simp] theorem setFlags_c (n : Int) (s : State) : (setFlags n s).c = carryFlag n := rfl
@[simp] theorem setFlags_mem (n : Int) (s : State) : (setFlags n s).mem = s.mem := rfl
@[simp] theorem setFlags_getReg (n : Int) (s : State) (r : Reg) : (setFlags n s).getReg r = s.getReg r := rfl
@[simp] theorem setFlags_pc (n : Int) (s : State) : (setFlags n s).pc = s.pc := rfl
@[simp] theorem load_setFlags (l : Loc) (n : Int) (s : State) : load l (setFlags n s) = load l s := by
  cases l <;> rfl

end Sys2Proof.Machine
end

