-- ==== Sys2Proof/Laws/Operands.lean ====
section
/-! SUPPORT. What operand evaluation, load and store can do (spec/40_operands.md rules R72 to R78). -/

namespace Sys2Proof.Machine

/-! ## Evaluation -/

@[simp] theorem evalOperand_direct (r : Reg) (s : State) : evalOperand ⟨.direct, r⟩ s = (.reg r, s) := rfl

@[simp] theorem evalOperand_indirect (r : Reg) (s : State) :
    evalOperand ⟨.indirect, r⟩ s = (.mem (s.getReg r), s) := rfl

@[simp] theorem evalOperand_postinc (r : Reg) (s : State) :
    evalOperand ⟨.postinc, r⟩ s = (.mem (s.getReg r), s.setReg r (s.getReg r + 2#16)) := rfl

@[simp] theorem evalOperand_predec (r : Reg) (s : State) :
    evalOperand ⟨.predec, r⟩ s = (.mem (s.getReg r - 2#16), s.setReg r (s.getReg r - 2#16)) := rfl

/-- All that an evaluation can do to the state: nothing, or one register written where the mode updates it. -/
theorem evalOperand_cases (o : Operand) (s : State) :
    (evalOperand o s).2 = s ∧ (∀ r, o.modifies r = false) ∨
      ∃ v, (evalOperand o s).2 = s.setReg o.reg v ∧ o.modifies o.reg = true := by
  obtain ⟨m, r⟩ := o
  cases m
  · exact .inl ⟨rfl, fun _ => rfl⟩
  · exact .inl ⟨rfl, fun _ => rfl⟩
  · exact .inr ⟨_, rfl, by simp [Operand.modifies]⟩
  · exact .inr ⟨_, rfl, by simp [Operand.modifies]⟩

@[simp] theorem evalOperand_mem (o : Operand) (s : State) : (evalOperand o s).2.mem = s.mem := by
  rcases evalOperand_cases o s with ⟨h, -⟩ | ⟨v, h, -⟩ <;> simp [h]

@[simp] theorem evalOperand_z (o : Operand) (s : State) : (evalOperand o s).2.z = s.z := by
  rcases evalOperand_cases o s with ⟨h, -⟩ | ⟨v, h, -⟩ <;> simp [h]

@[simp] theorem evalOperand_c (o : Operand) (s : State) : (evalOperand o s).2.c = s.c := by
  rcases evalOperand_cases o s with ⟨h, -⟩ | ⟨v, h, -⟩ <;> simp [h]

/-- A register that the mode does not update is as before. -/
theorem evalOperand_getReg (o : Operand) (s : State) {r : Reg} (h : o.modifies r = false) :
    (evalOperand o s).2.getReg r = s.getReg r := by
  rcases evalOperand_cases o s with ⟨h', -⟩ | ⟨v, h', hm⟩
  · rw [h']
  · rw [h']
    refine State.getReg_setReg_other s v fun e => ?_
    rw [e, hm] at h
    cases h

/-- A register destination is the operand's own register, in direct mode. -/
theorem evalOperand_reg {o : Operand} {s : State} {r : Reg} (h : (evalOperand o s).1 = .reg r) :
    o = ⟨.direct, r⟩ := by
  obtain ⟨m, r'⟩ := o
  cases m <;> simp_all

theorem evalSource_fst (src : Operand) (s : State) :
    (evalSource src s).1 = load (evalOperand src s).1 (evalOperand src s).2 := rfl

theorem evalSource_snd (src : Operand) (s : State) : (evalSource src s).2 = (evalOperand src s).2 := rfl

@[simp] theorem evalSource_mem (src : Operand) (s : State) : (evalSource src s).2.mem = s.mem := evalOperand_mem src s
@[simp] theorem evalSource_z (src : Operand) (s : State) : (evalSource src s).2.z = s.z := evalOperand_z src s
@[simp] theorem evalSource_c (src : Operand) (s : State) : (evalSource src s).2.c = s.c := evalOperand_c src s

/-! ## Load and store -/

@[simp] theorem load_reg (r : Reg) (s : State) : load (.reg r) s = s.getReg r := rfl
@[simp] theorem load_mem (a : Word) (s : State) : load (.mem a) s = s.mem.readWord a := rfl
@[simp] theorem store_reg (r : Reg) (v : Word) (s : State) : store (.reg r) v s = s.setReg r v := rfl
@[simp] theorem store_mem (a v : Word) (s : State) :
    store (.mem a) v s = s.setMem (s.mem.writeWord a v) := rfl

@[simp] theorem store_z (l : Loc) (v : Word) (s : State) : (store l v s).z = s.z := by cases l <;> rfl
@[simp] theorem store_c (l : Loc) (v : Word) (s : State) : (store l v s).c = s.c := by cases l <;> rfl

/-- What was stored is loaded back. -/
theorem load_store (l : Loc) (v : Word) (s : State) (h : s.mem.wf = true) : load l (store l v s) = v := by
  cases l with
  | reg r => simp
  | mem a => exact Memory.readWord_writeWord_self s.mem a v h

/-- A store leaves every register but its own location alone. -/
theorem store_getReg {l : Loc} (v : Word) (s : State) {r : Reg} (h : l ≠ .reg r) :
    (store l v s).getReg r = s.getReg r := by
  cases l with
  | reg r' => exact State.getReg_setReg_other s v fun e => h (congrArg Loc.reg e.symm)
  | mem a => rfl

/-- A store leaves every byte but those of its own location alone. -/
theorem store_read {l : Loc} (v : Word) (s : State) {a : Word} (h : l.covers a = false) :
    (store l v s).mem.read a = s.mem.read a := by
  cases l with
  | reg r => rfl
  | mem b =>
    simp only [Loc.covers, Bool.or_eq_false_iff, beq_eq_false_iff_ne] at h
    exact Memory.read_writeWord_other s.mem v h.1 h.2

theorem store_wf (l : Loc) (v : Word) (s : State) (h : s.mem.wf = true) : (store l v s).mem.wf = true := by
  cases l with
  | reg r => exact h
  | mem a => exact Memory.writeWord_wf s.mem a v h

end Sys2Proof.Machine
end

