-- ==== Sys2Proof/Laws/Exec.lean ====
section
/-! SUPPORT. What each shape of execution can do (spec/40_operands.md rules R79 to R82), one lemma for each
shared operation, and the flag rule in plain arithmetic. -/

namespace Sys2Proof.Machine

/-! ## Narrowing and flags -/

theorem wrap16_toNat (n : Int) : ((wrap16 n).toNat : Int) = n % 65536 := by
  simp only [wrap16, BitVec.toNat_ofInt]
  norm_num
  omega

@[simp] theorem wrap16_word (v : Word) : wrap16 (v.toNat : Int) = v := by
  apply BitVec.eq_of_toNat_eq
  have h := wrap16_toNat v.toNat
  have := v.isLt
  omega

/-- A narrowed result is the word that agrees with it modulo `0x10000`. -/
theorem wrap16_eq {n : Int} {v : Word} (h : n % 65536 = v.toNat) : wrap16 n = v := by
  apply BitVec.eq_of_toNat_eq
  have := wrap16_toNat n
  omega

theorem wrap16_add (d v : Word) : wrap16 ((d.toNat : Int) + v.toNat) = d + v :=
  wrap16_eq (by rw [BitVec.toNat_add]; omega)

theorem wrap16_sub (d v : Word) : wrap16 ((d.toNat : Int) - v.toNat) = d - v :=
  wrap16_eq (by rw [BitVec.toNat_sub]; have := v.isLt; omega)

/-- R82: `Z`, in plain arithmetic. -/
theorem zeroFlag_iff (n : Int) : zeroFlag n = true ↔ n % 65536 = 0 := by
  have h := wrap16_toNat n
  rw [zeroFlag, beq_iff_eq, ← BitVec.toNat_inj]
  simp only [BitVec.toNat_ofNat, Nat.zero_mod]
  omega

/-- R82: `C`, in plain arithmetic. -/
theorem carryFlag_iff (n : Int) : carryFlag n = true ↔ n < 0 ∨ 65535 < n := by
  simp [carryFlag]

@[simp] theorem zeroFlag_word (v : Word) : zeroFlag (v.toNat : Int) = (v == 0#16) := by
  simp [zeroFlag]

@[simp] theorem carryFlag_word (v : Word) : carryFlag (v.toNat : Int) = false := by
  have := v.isLt
  rw [Bool.eq_false_iff, ne_eq, carryFlag_iff]
  omega

/-! ## The shapes -/

/-- R79: a format S instruction stores its narrowed result where its operand lies, sets the flags from the
unbounded result, and changes nothing else. -/
theorem modifyOperand_spec (f : Word → Int) (o : Operand) (s : State) (h : s.mem.wf = true) :
    load (evalOperand o s).1 (modifyOperand f o s) =
        wrap16 (f (load (evalOperand o s).1 (evalOperand o s).2)) ∧
      (modifyOperand f o s).z = zeroFlag (f (load (evalOperand o s).1 (evalOperand o s).2)) ∧
      (modifyOperand f o s).c = carryFlag (f (load (evalOperand o s).1 (evalOperand o s).2)) ∧
      ChangesOnlyAt (evalOperand o s).1 [o] s (evalOperand o s).2 (modifyOperand f o s) := by
  refine ⟨?_, rfl, rfl, fun r hr => ?_, fun r hr hm => ?_, fun a ha => ?_⟩
  · simp only [modifyOperand, load_setFlags]
    exact load_store _ _ _ (by simpa using h)
  · exact store_getReg _ _ hr
  · exact (store_getReg _ _ hr).trans (evalOperand_getReg o s (hm o (by simp)))
  · exact (store_read _ _ ha).trans (by simp)

/-- R81: the moved value lies at the destination, the flags follow it, nothing else changes. -/
theorem moveInto_spec (dst : Operand) (v : Word) (s : State) (h : s.mem.wf = true) :
    load (evalOperand dst s).1 (moveInto dst v s) = v ∧
      (moveInto dst v s).z = (v == 0#16) ∧ (moveInto dst v s).c = false ∧
      ChangesOnlyAt (evalOperand dst s).1 [dst] s (evalOperand dst s).2 (moveInto dst v s) := by
  refine ⟨?_, zeroFlag_word v, carryFlag_word v, fun r hr => ?_, fun r hr hm => ?_, fun a ha => ?_⟩
  · simp only [moveInto, load_setFlags]
    exact load_store _ _ _ (by simpa using h)
  · exact store_getReg _ _ hr
  · exact (store_getReg _ _ hr).trans (evalOperand_getReg dst s (hm dst (by simp)))
  · exact (store_read _ _ ha).trans (by simp)

/-- A frame from the state after the source's evaluation is a frame from the state before it. -/
theorem ChangesOnlyAt.from_start {l : Loc} {dst src : Operand} {s e t : State}
    (h : ChangesOnlyAt l [dst] (evalOperand src s).2 e t) : ChangesOnlyAt l [src, dst] s e t := by
  refine ⟨h.1, fun r hr hm => ?_, fun a ha => (h.2.2 a ha).trans (by simp)⟩
  have h1 := h.2.1 r hr fun o ho => hm o (by simp_all)
  exact h1.trans (evalOperand_getReg src s (hm src (by simp)))

/-- R81, R104: the two cases of a conditional move. -/
theorem moveIf_true (dst src : Operand) (s : State) :
    moveIf true dst src s = moveInto dst (evalSource src s).1 (evalSource src s).2 := rfl

theorem moveIf_false (dst src : Operand) (s : State) : moveIf false dst src s = (evalSource src s).2 := rfl

/-- R81: what CMP, ADD, SUB, AND, OR and XOR do after their operands' evaluation. -/
theorem combineOperands_spec (g : Word → Word → Int) (dst src : Operand) (s : State) (h : s.mem.wf = true) :
    let v := evalSource src s
    let e := evalOperand dst v.2
    let n := g (load e.1 e.2) v.1
    load e.1 (combineOperands g dst src s) = wrap16 n ∧
      (combineOperands g dst src s).z = zeroFlag n ∧ (combineOperands g dst src s).c = carryFlag n ∧
      ChangesOnlyAt e.1 [src, dst] s e.2 (combineOperands g dst src s) := by
  refine ⟨?_, rfl, rfl, ChangesOnlyAt.from_start ⟨fun r hr => ?_, fun r hr hm => ?_, fun a ha => ?_⟩⟩
  · simp only [combineOperands, load_setFlags]
    exact load_store _ _ _ (by simpa using h)
  · exact store_getReg _ _ hr
  · exact (store_getReg _ _ hr).trans (evalOperand_getReg dst _ (hm dst (by simp)))
  · exact (store_read _ _ ha).trans (by simp)

theorem compareOperands_spec (g : Word → Word → Int) (dst src : Operand) (s : State) :
    let v := evalSource src s
    let e := evalOperand dst v.2
    let n := g (load e.1 e.2) v.1
    (compareOperands g dst src s).z = zeroFlag n ∧ (compareOperands g dst src s).c = carryFlag n ∧
      StoresNothing [src, dst] s e.2 (compareOperands g dst src s) := by
  refine ⟨rfl, rfl, fun _ => rfl, fun r hm => ?_, fun a => ?_⟩
  · exact (evalOperand_getReg dst _ (hm dst (by simp))).trans (evalOperand_getReg src s (hm src (by simp)))
  · simp [compareOperands]

/-- R81, R105: what CALL does after its operands' evaluation. -/
theorem callInto_spec (dst src : Operand) (s : State) (h : s.mem.wf = true) :
    let v := evalSource src s
    let e := evalOperand dst v.2
    let t := callInto dst src s
    (e.1 ≠ .reg .r7 → load e.1 t = e.2.pc) ∧ t.pc = v.1 ∧ t.z = (v.1 == 0#16) ∧ t.c = false ∧
      (∀ r, r ≠ .r7 → e.1 ≠ .reg r → t.getReg r = e.2.getReg r) ∧
      (∀ a, e.1.covers a = false → t.mem.read a = s.mem.read a) := by
  refine ⟨fun hne => ?_, rfl, zeroFlag_word _, carryFlag_word _, fun r h7 hr => ?_, fun a ha => ?_⟩
  · have hl := load_store (evalOperand dst (evalSource src s).2).1 (evalOperand dst (evalSource src s).2).2.pc
      (evalOperand dst (evalSource src s).2).2 (by simpa using h)
    simp only [callInto, load_setFlags]
    cases hd : (evalOperand dst (evalSource src s).2).1 with
    | reg r =>
      rw [hd] at hne hl
      have h7 : r ≠ .r7 := fun e => hne (by rw [e])
      simp only [load_reg, State.setPc_eq_setReg, State.getReg_setReg_other _ _ h7]
      exact hl
    | mem a => rw [hd] at hl; exact hl
  · simp only [callInto, setFlags_getReg, State.setPc_eq_setReg, State.getReg_setReg_other _ _ h7]
    exact store_getReg _ _ hr
  · exact (store_read _ _ ha).trans (by simp)

/-! ## The canonical form of memory -/

theorem modifyOperand_wf (f : Word → Int) (o : Operand) (s : State) (h : s.mem.wf = true) :
    (modifyOperand f o s).mem.wf = true :=
  store_wf _ _ _ (by simpa using h)

theorem moveIf_wf (b : Bool) (dst src : Operand) (s : State) (h : s.mem.wf = true) :
    (moveIf b dst src s).mem.wf = true := by
  cases b
  · simpa [moveIf] using h
  · exact store_wf _ _ _ (by simpa using h)

theorem callInto_wf (dst src : Operand) (s : State) (h : s.mem.wf = true) : (callInto dst src s).mem.wf = true :=
  store_wf _ _ _ (by simpa using h)

theorem compareOperands_wf (g : Word → Word → Int) (dst src : Operand) (s : State) (h : s.mem.wf = true) :
    (compareOperands g dst src s).mem.wf = true := by
  simpa [compareOperands] using h

theorem combineOperands_wf (g : Word → Word → Int) (dst src : Operand) (s : State) (h : s.mem.wf = true) :
    (combineOperands g dst src s).mem.wf = true :=
  store_wf _ _ _ (by simpa using h)

end Sys2Proof.Machine
end

