-- ==== Sys2Proof/Laws/PerInstr.lean ====
section
/-! SUPPORT. Statements made for every instruction, one lemma for each constructor. -/

namespace Sys2Proof.Laws

/-- The mask over the first byte of the instruction's row in spec/opcode_table.json. -/
def firstByteMask : Instr → Byte
  | .inc _ => 0xE0
  | .dec _ => 0xE0
  | .neg _ => 0xE0
  | .not _ => 0xE0
  | .lsh _ => 0xE0
  | .rsh _ => 0xE0
  | .mov _ _ => 0xFC
  | .cmoveq _ _ => 0xFC
  | .cmovlt _ _ => 0xFC
  | .cmovgt _ _ => 0xFC
  | .call _ _ => 0xFC
  | .cmp _ _ => 0xFC
  | .add _ _ => 0xFC
  | .sub _ _ => 0xFC
  | .and _ _ => 0xFC
  | .or _ _ => 0xFC
  | .xor _ _ => 0xFC

/-- The match over the first byte of the instruction's row in spec/opcode_table.json. -/
def firstByteMatch : Instr → Byte
  | .inc _ => 0x00
  | .dec _ => 0x20
  | .neg _ => 0x40
  | .not _ => 0x60
  | .lsh _ => 0x80
  | .rsh _ => 0xA0
  | .mov _ _ => 0xC0
  | .cmoveq _ _ => 0xC4
  | .cmovlt _ _ => 0xC8
  | .cmovgt _ _ => 0xCC
  | .call _ _ => 0xD0
  | .cmp _ _ => 0xD4
  | .add _ _ => 0xD8
  | .sub _ _ => 0xDC
  | .and _ _ => 0xE0
  | .or _ _ => 0xE4
  | .xor _ _ => 0xE8

namespace FirstByte

/-- The first byte of the instruction's encoding is the one its row of the opcode table gives. -/
def Statement (i : Instr) : Prop :=
  ∃ b0 rest, encode i = b0 :: rest ∧ b0 &&& firstByteMask i = firstByteMatch i

theorem single {op : BitVec 3} (o : Operand) : (op ++ o.mode.bits ++ o.reg.bits) &&& 0xE0#8 = op ++ 0#5 := by
  obtain ⟨m, r⟩ := o
  revert op
  cases m <;> cases r <;> decide

theorem double {op : BitVec 4} (m : Mode) : ((0b11#2 ++ op ++ m.bits : BitVec 8)) &&& 0xFC#8 = 0b11#2 ++ op ++ 0#2 := by
  revert op
  cases m <;> decide

theorem inc (op : Operand) : Statement (.inc op) := ⟨_, _, rfl, single op⟩
theorem dec (op : Operand) : Statement (.dec op) := ⟨_, _, rfl, single op⟩
theorem neg (op : Operand) : Statement (.neg op) := ⟨_, _, rfl, single op⟩
theorem not (op : Operand) : Statement (.not op) := ⟨_, _, rfl, single op⟩
theorem lsh (op : Operand) : Statement (.lsh op) := ⟨_, _, rfl, single op⟩
theorem rsh (op : Operand) : Statement (.rsh op) := ⟨_, _, rfl, single op⟩
theorem mov (dst src : Operand) : Statement (.mov dst src) := ⟨_, _, rfl, double dst.mode⟩
theorem cmoveq (dst src : Operand) : Statement (.cmoveq dst src) := ⟨_, _, rfl, double dst.mode⟩
theorem cmovlt (dst src : Operand) : Statement (.cmovlt dst src) := ⟨_, _, rfl, double dst.mode⟩
theorem cmovgt (dst src : Operand) : Statement (.cmovgt dst src) := ⟨_, _, rfl, double dst.mode⟩
theorem call (dst src : Operand) : Statement (.call dst src) := ⟨_, _, rfl, double dst.mode⟩
theorem cmp (dst src : Operand) : Statement (.cmp dst src) := ⟨_, _, rfl, double dst.mode⟩
theorem add (dst src : Operand) : Statement (.add dst src) := ⟨_, _, rfl, double dst.mode⟩
theorem sub (dst src : Operand) : Statement (.sub dst src) := ⟨_, _, rfl, double dst.mode⟩
theorem and (dst src : Operand) : Statement (.and dst src) := ⟨_, _, rfl, double dst.mode⟩
theorem or (dst src : Operand) : Statement (.or dst src) := ⟨_, _, rfl, double dst.mode⟩
theorem xor (dst src : Operand) : Statement (.xor dst src) := ⟨_, _, rfl, double dst.mode⟩

end FirstByte

end Sys2Proof.Laws
end

