-- ==== Sys2Proof/Laws/Step.lean ====
section
/-! SUPPORT. What fetching and the step can do (spec/40_operands.md rules R70 and R71). -/

namespace Sys2Proof.Machine

/-! ## Fetch -/

@[simp] theorem fetch8_fst (s : State) : (fetch8 s).1 = s.mem.read s.pc := rfl
@[simp] theorem fetch8_snd (s : State) : (fetch8 s).2 = s.setPc (s.pc + 1#16) := rfl

@[simp] theorem State.setPc_setPc (s : State) (t u : Word) : (s.setPc t).setPc u = s.setPc u := by
  simp [State.setPc_eq_setReg]

/-- R53, R58: a first byte that is not the marker's is an instruction of format S. -/
theorem decodeS_of_not_formatD (b0 : Byte) (h : isFormatD b0 = false) : ∃ i, decodeS b0 = some i := by
  have key : ∀ b : Byte, isFormatD b = false → (decodeS b).isSome = true := by decide
  exact Option.isSome_iff_exists.1 (key b0 h)

/-- R60: a first byte begins an assigned instruction exactly when it is below `0xEC`. -/
theorem decodeD_isSome (b0 : Byte) (h : isFormatD b0 = true) : (decodeD b0).isSome = decide (b0 < 0xEC#8) := by
  revert b0; decide

/-- R70: all that fetching can give: a format S instruction one byte on, a format D instruction two bytes on,
or an unassigned first byte. -/
theorem fetchInstr_cases (s : State) :
    (∃ i, isFormatD (s.mem.read s.pc) = false ∧ decodeS (s.mem.read s.pc) = some i ∧
        fetchInstr s = .instr i (s.setPc (s.pc + 1#16))) ∨
      (∃ finish, isFormatD (s.mem.read s.pc) = true ∧ decodeD (s.mem.read s.pc) = some finish ∧
        fetchInstr s = .instr (finish (s.mem.read (s.pc + 1#16))) (s.setPc (s.pc + 1#16 + 1#16))) ∨
      (isFormatD (s.mem.read s.pc) = true ∧ decodeD (s.mem.read s.pc) = none ∧
        fetchInstr s = .unassigned (s.mem.read s.pc) (s.setPc (s.pc + 1#16))) := by
  by_cases hf : isFormatD (s.mem.read s.pc) = true
  · cases hd : decodeD (s.mem.read s.pc) with
    | some finish => exact .inr (.inl ⟨finish, hf, rfl, by simp [fetchInstr, hf, hd]⟩)
    | none => exact .inr (.inr ⟨hf, rfl, by simp [fetchInstr, hf, hd]⟩)
  · rw [Bool.not_eq_true] at hf
    obtain ⟨i, hi⟩ := decodeS_of_not_formatD _ hf
    exact .inl ⟨i, hf, hi, by simp [fetchInstr, hf, hi]⟩

/-- A fetch changes nothing but `x[7]`. -/
theorem fetchInstr_instr {s t : State} {i : Instr} (h : fetchInstr s = .instr i t) : ∃ p, t = s.setPc p := by
  rcases fetchInstr_cases s with ⟨_, _, _, hc⟩ | ⟨_, _, _, hc⟩ | ⟨_, _, hc⟩
  · rw [hc] at h; cases h; exact ⟨_, rfl⟩
  · rw [hc] at h; cases h; exact ⟨_, rfl⟩
  · rw [hc] at h; cases h

/-! ## The step -/

/-- All that a step can do: execute the instruction fetched, or raise the model fault with the byte and its
address. -/
theorem step_cases (s : State) :
    (∃ i t, fetchInstr s = .instr i t ∧ step s = exec i t) ∨
      (isFormatD (s.mem.read s.pc) = true ∧ decodeD (s.mem.read s.pc) = none ∧
        step s = .fault (.illegalInstruction (s.mem.read s.pc) s.pc)) := by
  rcases fetchInstr_cases s with ⟨i, _, _, hc⟩ | ⟨finish, _, _, hc⟩ | ⟨hf, hd, hc⟩
  · exact .inl ⟨_, _, hc, by simp [step, hc]⟩
  · exact .inl ⟨_, _, hc, by simp [step, hc]⟩
  · exact .inr ⟨hf, hd, by simp [step, hc, raiseIllegalInstruction]⟩

end Sys2Proof.Machine
end

