-- ==== Sys2Proof/Tests/Slice0.lean ====
section
/-! SUPPORT. The model's own tests. Expected results are those of spec/95_test_vectors.md (the vector's id
stands in each comment) or of a rule's example; and one witness for every statement that has hypotheses. -/

namespace Sys2Proof.Tests

open Sys2Proof.Machine

/-! ## Well-formedness: each check with a term it refuses -/

theorem test_wellFormed_immediate_present :
    (Code.mk (.inc ⟨.postinc, .r7⟩) [0xA72E]).wellFormed = true := by decide

theorem test_wellFormed_immediate_missing :
    (Code.mk (.inc ⟨.postinc, .r7⟩) []).wellFormed = false := by decide

theorem test_wellFormed_word_too_many :
    (Code.mk (.mov ⟨.direct, .r1⟩ ⟨.direct, .r0⟩) [0xA72E]).wellFormed = false := by decide

/-! ## Decoding: words written out from the encoding tables -/

-- the source's examples of 95_test_vectors.md section 1, bits as printed
theorem test_decode_inc : decode [0b00000000] = .ok (.inc ⟨.direct, .r0⟩, []) := by decide
-- DE19
theorem test_decode_dec : decode [0b00100100] = .ok (.dec ⟨.direct, .r4⟩, []) := by decide
-- DE17
theorem test_decode_neg : decode [0b01010010] = .ok (.neg ⟨.postinc, .r2⟩, []) := by decide
-- DE18
theorem test_decode_not : decode [0b01111011] = .ok (.not ⟨.predec, .r3⟩, []) := by decide
-- DE15
theorem test_decode_lsh : decode [0b10000000] = .ok (.lsh ⟨.direct, .r0⟩, []) := by decide
-- DE16
theorem test_decode_rsh : decode [0b10101001] = .ok (.rsh ⟨.indirect, .r1⟩, []) := by decide
-- DE12; the byte order of R34
theorem test_decode_mov : decode [0b11000000, 0b00100000] = .ok (.mov ⟨.direct, .r1⟩ ⟨.direct, .r0⟩, []) := by
  decide
-- CM1
theorem test_decode_cmoveq :
    decode [0b11000110, 0b00110010] = .ok (.cmoveq ⟨.postinc, .r1⟩ ⟨.postinc, .r2⟩, []) := by decide
-- CM16
theorem test_decode_cmovlt :
    decode [0b11001000, 0b00010000] = .ok (.cmovlt ⟨.direct, .r0⟩ ⟨.postinc, .r0⟩, []) := by decide
-- section 1, CMOVGT R1, @-R0
theorem test_decode_cmovgt :
    decode [0b11001100, 0b00111000] = .ok (.cmovgt ⟨.direct, .r1⟩ ⟨.predec, .r0⟩, []) := by decide
-- CL8
theorem test_decode_call :
    decode [0b11010011, 0b11001001] = .ok (.call ⟨.predec, .r6⟩ ⟨.indirect, .r1⟩, []) := by decide
-- DE13
theorem test_decode_cmp :
    decode [0b11010110, 0b11100000] = .ok (.cmp ⟨.postinc, .r7⟩ ⟨.direct, .r0⟩, []) := by decide
-- OR3
theorem test_decode_add :
    decode [0b11011000, 0b00010000] = .ok (.add ⟨.direct, .r0⟩ ⟨.postinc, .r0⟩, []) := by decide
-- DE14
theorem test_decode_sub :
    decode [0b11011111, 0b01011010] = .ok (.sub ⟨.predec, .r2⟩ ⟨.predec, .r2⟩, []) := by decide
-- section 1, AND R1, @R0
theorem test_decode_and :
    decode [0b11100000, 0b00101000] = .ok (.and ⟨.direct, .r1⟩ ⟨.indirect, .r0⟩, []) := by decide
-- section 1, OR R1, @R0+
theorem test_decode_or :
    decode [0b11100100, 0b00110000] = .ok (.or ⟨.direct, .r1⟩ ⟨.postinc, .r0⟩, []) := by decide
-- DE7
theorem test_decode_xor :
    decode [0b11101011, 0b00000000] = .ok (.xor ⟨.predec, .r0⟩ ⟨.direct, .r0⟩, []) := by decide

-- DE8, DE9
theorem test_decode_unassigned :
    decode [0xEC, 0x00] = .error (.unassigned 0xEC) ∧ decode [0xFF] = .error (.unassigned 0xFF) := by decide

-- DE11, the source's immediate first
theorem test_decode_two_immediates :
    decodeCode [0xD6, 0xF7, 0x03, 0x00, 0x05, 0x00] =
      .ok (⟨.cmp ⟨.postinc, .r7⟩ ⟨.postinc, .r7⟩, [0x0003, 0x0005]⟩, []) := by decide

-- the table's numbering: MOV's row matches 0xC000 under 0xFC00 with b0 in bits 15:8
theorem test_decodeTableWord :
    decodeTableWord 16 0xC020 = some (.mov ⟨.direct, .r1⟩ ⟨.direct, .r0⟩) ∧
      decodeTableWord 8 0xA9 = some (.rsh ⟨.indirect, .r1⟩) := by decide

/-! ## Assembly notation (R63 to R65) -/

theorem test_text_immediate :
    (Code.mk (.cmp ⟨.postinc, .r7⟩ ⟨.direct, .r0⟩) [0xA72E]).text = "CMP #123456, R0" := by decide

theorem test_text_call :
    (Code.mk (.call ⟨.postinc, .r6⟩ ⟨.postinc, .r7⟩) []).text = "CALL @R6+, @R7+" := by decide

/-! ## Single steps -/

/-- Bytes at `0x0200`, where R7 points; all else zero, as the vectors have it. -/
def start (bs : List Byte) : State := (State.reset.setPc 0x0200).placeAtPc bs

/-- The state with one more word in memory. -/
def withWord (a v : Word) (s : State) : State := s.setMem (s.mem.writeWord a v)

/-- The step completes, and the state after it meets the test. -/
def stepsTo (s : State) (test : State → Bool) : Bool :=
  match step s with
  | .next t => test t
  | .fault _ => false
  | .refused _ => false

/-- Both flags. -/
def flagsAre (z c : Bool) (t : State) : Bool := t.z == z && t.c == c

-- IN1
theorem test_inc_wraps : stepsTo ((start [0x00]).setReg .r0 0xFFFF)
    (fun t => t.getReg .r0 == 0 && flagsAre true true t && t.pc == 0x0201) = true := by decide
-- AM5
theorem test_inc_immediate : stepsTo (start [0x17, 0x2E, 0xA7])
    (fun t => t.mem.readWord 0x0201 == 0xA72F && flagsAre false false t && t.pc == 0x0203) = true := by decide
-- DC1
theorem test_dec_borrows : stepsTo ((start [0x20]).setReg .r0 0)
    (fun t => t.getReg .r0 == 0xFFFF && flagsAre false true t) = true := by decide
-- AM6, an odd address and its neighbours
theorem test_dec_odd_address :
    stepsTo (withWord 0x1000 0x00AA (withWord 0x1002 0xBB01 ((start [0x2B]).setReg .r3 0x1001)))
      (fun t => t.mem.readWord 0x1000 == 0xFFAA && t.mem.readWord 0x1002 == 0xBB00) = true := by decide
-- NG1
theorem test_neg_zero : stepsTo ((start [0x40]).setReg .r0 0)
    (fun t => t.getReg .r0 == 0 && flagsAre true true t) = true := by decide
-- NG3
theorem test_neg_own_negation : stepsTo ((start [0x40]).setReg .r0 0x8000)
    (fun t => t.getReg .r0 == 0x8000 && flagsAre false false t) = true := by decide
-- NT2
theorem test_not_ones : stepsTo ((start [0x60]).setReg .r0 0xFFFF)
    (fun t => t.getReg .r0 == 0 && flagsAre true false t) = true := by decide
-- AM7, a word across the top of memory
theorem test_not_wraps : stepsTo (withWord 0xFFFF 0x1234 ((start [0x6B]).setReg .r3 0xFFFF))
    (fun t => t.mem.readWord 0xFFFF == 0xEDCB && t.mem.read 0 == 0xED) = true := by decide
-- LS1
theorem test_lsh_out : stepsTo ((start [0x80]).setReg .r0 0x8000)
    (fun t => t.getReg .r0 == 0 && flagsAre true true t) = true := by decide
-- AM12, into the instruction's own byte
theorem test_lsh_own_code : stepsTo (withWord 0x01FF 0x9F01 (start [0x9F]))
    (fun t => t.mem.readWord 0x01FF == 0x3E02 && t.pc == 0x01FF && flagsAre false true t) = true := by decide
-- RS1
theorem test_rsh_loses_bit : stepsTo ((start [0xA0]).setReg .r0 1)
    (fun t => t.getReg .r0 == 0 && flagsAre true false t) = true := by decide
-- RS3
theorem test_rsh_no_sign : stepsTo ((start [0xA0]).setReg .r0 0x8001)
    (fun t => t.getReg .r0 == 0x4000 && flagsAre false false t) = true := by decide
-- OR1
theorem test_mov_stores_old : stepsTo ((start [0xC2, 0x00]).setReg .r0 0x1000)
    (fun t => t.mem.readWord 0x1000 == 0x1000 && t.getReg .r0 == 0x1002) = true := by decide
-- OR12, R7 stepped back into its own instruction
theorem test_mov_predec_pc : stepsTo (start [0xC0, 0x3F])
    (fun t => t.getReg .r1 == 0x3FC0 && t.pc == 0x0200) = true := by decide
-- CM13
theorem test_cmoveq_branches : stepsTo { start [0xC4, 0xF7, 0x00, 0x03] with z := true }
    (fun t => t.pc == 0x0300 && flagsAre false false t) = true := by decide
-- CM17, the untaken move leaves R7 at its destination immediate
theorem test_cmoveq_untaken : stepsTo ((start [0xC6, 0xE0, 0x00, 0x00]).setReg .r0 0x0BAD)
    (fun t => t.pc == 0x0202 && t.mem.readWord 0x0202 == 0 && flagsAre false false t) = true := by decide
-- CM8
theorem test_cmovlt_taken :
    stepsTo { withWord 0x1000 0x7777 (((start [0xCA, 0x32]).setReg .r1 0x1000).setReg .r2 0x1100) with z := true, c := true }
      (fun t => t.mem.readWord 0x1000 == 0 && t.getReg .r1 == 0x1002 && flagsAre true false t) = true := by decide
-- CM16, the source's postincrement still happens
theorem test_cmovlt_untaken : stepsTo ((start [0xC8, 0x10]).setReg .r0 0x1000)
    (fun t => t.getReg .r0 == 0x1002) = true := by decide
-- CM15
theorem test_cmovgt_taken : stepsTo ((start [0xCC, 0x17, 0x00, 0x00]).setReg .r0 9)
    (fun t => t.getReg .r0 == 0 && t.pc == 0x0204 && flagsAre true false t) = true := by decide
-- CM10
theorem test_cmovgt_untaken :
    stepsTo { withWord 0x1000 0x7777 (((start [0xCE, 0x32]).setReg .r1 0x1000).setReg .r2 0x1100) with c := true }
      (fun t => t.mem.readWord 0x1000 == 0x7777 && t.getReg .r1 == 0x1000 && t.getReg .r2 == 0x1102 &&
        flagsAre false true t) = true := by decide
-- CL6
theorem test_call_pops_and_pushes :
    stepsTo (withWord 0x2000 0x0600 ((start [0xD2, 0xD6]).setReg .r6 0x2000))
      (fun t => t.pc == 0x0600 && t.mem.readWord 0x2002 == 0x0202 && t.getReg .r6 == 0x2004) = true := by decide
-- CL9, the one form whose result rests on D8
theorem test_call_into_code : stepsTo ((start [0xD2, 0xE0, 0xEE, 0xEE]).setReg .r0 0x0500)
    (fun t => t.pc == 0x0500 && t.mem.readWord 0x0202 == 0x0204) = true := by decide
-- CP2 and CP6
theorem test_cmp_less : stepsTo (((start [0xD4, 0x20]).setReg .r1 3).setReg .r0 5)
    (fun t => t.getReg .r1 == 3 && flagsAre false true t) = true := by decide
theorem test_cmp_unsigned : stepsTo (((start [0xD4, 0x20]).setReg .r1 0x8000).setReg .r0 0x7FFF)
    (fun t => flagsAre false false t) = true := by decide
-- AD4 with C set before
theorem test_add_no_carry_in : stepsTo { ((start [0xD8, 0x20]).setReg .r1 0xFFFF).setReg .r0 0xFFFF with c := true }
    (fun t => t.getReg .r1 == 0xFFFE && flagsAre false true t) = true := by decide
-- OR8
theorem test_add_relative_branch : stepsTo (start [0xD8, 0xF7, 0x04, 0x00]) (fun t => t.pc == 0x0208) = true := by
  decide
-- SB1
theorem test_sub_borrows : stepsTo (((start [0xDC, 0x20]).setReg .r1 3).setReg .r0 5)
    (fun t => t.getReg .r1 == 0xFFFE && flagsAre false true t) = true := by decide
-- OR13
theorem test_sub_memory :
    stepsTo (withWord 0x1000 3 (withWord 0x1100 5 (((start [0xDD, 0x2A]).setReg .r1 0x1000).setReg .r2 0x1100)))
      (fun t => t.mem.readWord 0x1000 == 0xFFFE && t.mem.readWord 0x1100 == 5) = true := by decide
-- AN3 with C set before
theorem test_and_disjoint : stepsTo { ((start [0xE0, 0x20]).setReg .r1 0xAAAA).setReg .r0 0x5555 with c := true }
    (fun t => t.getReg .r1 == 0 && flagsAre true false t) = true := by decide
-- OO2 with C set before
theorem test_or : stepsTo { ((start [0xE4, 0x20]).setReg .r1 0xF0F0).setReg .r0 0x0FF0 with c := true }
    (fun t => t.getReg .r1 == 0xFFF0 && flagsAre false false t) = true := by decide
-- OR14
theorem test_xor_clears : stepsTo { (start [0xE8, 0x21]).setReg .r1 0x5A5A with c := true }
    (fun t => t.getReg .r1 == 0 && flagsAre true false t) = true := by decide

-- AM13, a fetch at the top of memory
theorem test_fetch_wraps : stepsTo ((start []).setPc 0xFFFF)
    (fun t => t.getReg .r0 == 1 && t.pc == 0) = true := by decide

/-- The fault a step raises. -/
def faultOf (s : State) : Option Fault :=
  match step s with
  | .next _ => none
  | .fault r => some r
  | .refused _ => none

-- FL1 and FL7
theorem test_fault_unassigned :
    faultOf (start [0xEC]) = some (.illegalInstruction 0xEC 0x0200) ∧
      faultOf (start [0xFF]) = some (.illegalInstruction 0xFF 0x0200) := by decide

-- R35's example: a word stored and fetched as code
theorem test_mixed_width :
    let s := withWord 0x0200 0x0017 (start [])
    (fetch8 s).1 = 0x17 ∧ decode [(fetch8 s).1] = .ok (.inc ⟨.postinc, .r7⟩, []) := by decide

-- R42 for ADD @R0+, @R0+ (OR4)
theorem test_accesses :
    stepAccesses ((start [0xDA, 0x10]).setReg .r0 0x1000) =
      [⟨.fetch, 0x0200⟩, ⟨.fetch, 0x0201⟩, ⟨.read, 0x1000⟩, ⟨.read, 0x1002⟩, ⟨.write, 0x1002⟩] := by decide

-- R32: the same step where memory ends before 0x1003
theorem test_small_memory :
    firstOutside 0x1003 ((start [0xDA, 0x10]).setReg .r0 0x1000) = some 0x1003 ∧
      firstOutside 0x1004 ((start [0xDA, 0x10]).setReg .r0 0x1000) = none := by decide

/-! ## Witnesses: for each statement with hypotheses, a state and operands that meet them -/

/-- A state with something in memory, at odd addresses and across the top. -/
def sample : State :=
  withWord 0xFFFF 0x1234 (withWord 0x1001 0x5678 (((start [0xC2, 0x51]).setReg .r1 0x1001).setReg .r2 0xFFFF))

theorem sample_wf : sample.mem.wf = true := by decide

theorem witness_DecodeOfEncodeWithImmediates :
    (Code.mk (.add ⟨.postinc, .r7⟩ ⟨.postinc, .r7⟩) [2, 1]).wellFormed = true := by decide

theorem witness_EncodeOfDecode :
    decode [0xC0, 0x20, 0x99] = .ok (.mov ⟨.direct, .r1⟩ ⟨.direct, .r0⟩, [0x99]) := by decide

theorem witness_LoadAndStore : sample.mem.wf = true := sample_wf
theorem witness_WordsAreLittleEndian : sample.mem.wf = true := sample_wf
theorem witness_FetchSeesStores : sample.mem.wf = true := sample_wf
theorem witness_IncResult : sample.mem.wf = true := sample_wf
theorem witness_DecResult : sample.mem.wf = true := sample_wf
theorem witness_NegResult : sample.mem.wf = true := sample_wf
theorem witness_NotResult : sample.mem.wf = true := sample_wf
theorem witness_LshResult : sample.mem.wf = true := sample_wf
theorem witness_RshResult : sample.mem.wf = true := sample_wf
theorem witness_MovResult : sample.mem.wf = true := sample_wf
theorem witness_AddResult : sample.mem.wf = true := sample_wf
theorem witness_SubResult : sample.mem.wf = true := sample_wf
theorem witness_AndResult : sample.mem.wf = true := sample_wf
theorem witness_OrResult : sample.mem.wf = true := sample_wf
theorem witness_XorResult : sample.mem.wf = true := sample_wf
theorem witness_SourceIsEvaluatedFirst : sample.mem.wf = true := sample_wf

/-- The clause on a register the mode updates, and the one on a register it does not. -/
theorem witness_EvaluationFrame :
    Operand.modifies ⟨.postinc, .r2⟩ .r2 = true ∧ Operand.modifies ⟨.postinc, .r2⟩ .r3 = false ∧
      Operand.modifies ⟨.indirect, .r2⟩ .r2 = false := by decide

theorem witness_NegIsNotThenInc :
    sample.mem.wf = true ∧ (∀ r, Operand.modifies ⟨.direct, .r1⟩ r = false) ∧
      ∀ r, Operand.modifies ⟨.indirect, .r2⟩ r = false :=
  ⟨sample_wf, fun _ => rfl, fun _ => rfl⟩

theorem witness_CmoveqResult :
    (sample.mem.wf = true ∧ ({ sample with z := true } : State).z = true) ∧ sample.mem.wf = true ∧ sample.z = false := by
  decide

theorem witness_CmovltResult :
    (sample.mem.wf = true ∧ ({ sample with c := true } : State).c = true) ∧ sample.mem.wf = true ∧ sample.c = false := by
  decide

theorem witness_CmovgtResult :
    (sample.mem.wf = true ∧ sample.z = false ∧ sample.c = false) ∧
      sample.mem.wf = true ∧ (({ sample with z := true } : State).z = true ∨ sample.c = true) := by
  decide

/-- One operand pair for each clause of `CallResult`: a destination other than R7, a register that neither
operand touches, and a byte outside the pushed word. -/
theorem witness_CallResult :
    sample.mem.wf = true ∧
      (evalOperand ⟨.postinc, .r6⟩ (evalSource ⟨.direct, .r1⟩ sample).2).1 ≠ .reg .r7 ∧
      Operand.modifies ⟨.direct, .r1⟩ .r2 = false ∧ Operand.modifies ⟨.postinc, .r6⟩ .r2 = false ∧
      (evalOperand ⟨.postinc, .r6⟩ (evalSource ⟨.direct, .r1⟩ sample).2).1.covers 0x1001 = false := by
  decide

/-- The returning state may be the one the call ended in. -/
theorem witness_ReturnUndoesCall :
    let v := evalSource ⟨.direct, .r1⟩ sample
    let t := callInto ⟨.postinc, .r6⟩ ⟨.direct, .r1⟩ sample
    sample.mem.wf = true ∧ t.getReg .r6 = v.2.getReg .r6 + 2#16 ∧ t.mem.readWord (v.2.getReg .r6) = v.2.pc := by
  decide

theorem witness_OnlyConditionalMovesReadFlags :
    Instr.isConditional (.add ⟨.direct, .r1⟩ ⟨.direct, .r0⟩) = false := rfl

theorem witness_SubIsCmpWithStore : (⟨.direct, .r1⟩ : Operand) ≠ ⟨.direct, .r0⟩ := by decide

theorem witness_StepFetchesByteByByte_formatS : isFormatD (fetch8 (start [0xBF])).1 = false := by decide

theorem witness_StepFetchesByteByByte_formatD :
    isFormatD (fetch8 (start [0xEB, 0x00])).1 = true ∧ (decodeD (fetch8 (start [0xEB, 0x00])).1).isSome = true := by
  decide

theorem witness_StepRunsDecodedInstruction :
    decode (codeAt (start [0xEB, 0x00])) = .ok (.xor ⟨.predec, .r0⟩ ⟨.direct, .r0⟩, []) := by decide

/-- `0xEB` is the highest byte of the first clause, `0xEC` the lowest of the second. -/
theorem witness_StepFaultsExactlyOnUnassigned :
    (start [0xEB]).mem.read (start [0xEB]).pc < 0xEC#8 ∧ 0xEC#8 ≤ (start [0xEC]).mem.read (start [0xEC]).pc := by
  decide

theorem witness_StepKeepsMemoryCanonical : sample.mem.wf = true ∧ stepsTo sample (fun _ => true) = true := by decide

theorem witness_StepAdvancesByLength :
    decode (codeAt (start [0xD8, 0x17, 0x04, 0x00])) = .ok (.add ⟨.direct, .r0⟩ ⟨.postinc, .r7⟩, []) ∧
      stepsTo (start [0xD8, 0x17, 0x04, 0x00]) (fun t => t.pc == 0x0204) = true ∧
      Instr.isCall (.add ⟨.direct, .r0⟩ ⟨.postinc, .r7⟩) = false ∧
      (∀ o ∈ Instr.operands (.add ⟨.direct, .r0⟩ ⟨.postinc, .r7⟩), o.reg = .r7 → o.mode = .postinc) := by
  decide

theorem witness_StepChangesOnlyNamedRegisters :
    decode (codeAt sample) = .ok (.mov ⟨.postinc, .r2⟩ ⟨.postinc, .r1⟩, []) ∧
      stepsTo sample (fun _ => true) = true ∧ Reg.r3 ≠ .r7 ∧
      (∀ o ∈ Instr.operands (.mov ⟨.postinc, .r2⟩ ⟨.postinc, .r1⟩), o.reg ≠ .r3) := by decide

theorem witness_IncImmediateModifiesItsCode :
    (start [0x17, 0xFF, 0xFF]).mem.wf = true ∧
      (start [0x17, 0xFF, 0xFF]).mem.read (start [0x17, 0xFF, 0xFF]).pc = 0x17#8 := by decide

/-- One state for each of the five branches. -/
theorem witness_ControlTransferIdioms :
    ∀ b0 ∈ [0xC0#8, 0xD8#8, 0xC4#8, 0xC8#8, 0xCC#8],
      (start [b0, 0xF7]).mem.read (start [b0, 0xF7]).pc = b0 ∧
        (start [b0, 0xF7]).mem.read ((start [b0, 0xF7]).pc + 1#16) = 0xF7#8 := by decide

theorem witness_CanonicalCallStep :
    (start [0xD2, 0xD7]).mem.wf = true ∧ (start [0xD2, 0xD7]).mem.read (start [0xD2, 0xD7]).pc = 0xD2#8 ∧
      (start [0xD2, 0xD7]).mem.read ((start [0xD2, 0xD7]).pc + 1#16) = 0xD7#8 := by decide

/-- A step that writes, and an address outside what it writes. -/
theorem witness_StepWritesOnlyItsAccesses :
    stepsTo sample (fun _ => true) = true ∧
      ∀ x ∈ stepAccesses sample, x.kind = .write → (0x1001#16) ∉ x.bytes := by decide

/-- `ADD @R0, @R1` at `0x0200`: the step fetches, reads both operands and writes the destination. -/
def addWords : State :=
  withWord 0x1000 3 (withWord 0x1100 5 (((start [0xD9, 0x09]).setReg .r0 0x1000).setReg .r1 0x1100))

/-- The table of R38 and the order of R42: the source's read comes before the destination's. -/
theorem witness_AccessesComeInOrder_formatD :
    decode (codeAt addWords) = .ok (.add ⟨.indirect, .r0⟩ ⟨.indirect, .r1⟩, []) ∧
      stepAccesses addWords =
        [⟨.fetch, 0x0200⟩, ⟨.fetch, 0x0201⟩, ⟨.read, 0x1100⟩, ⟨.read, 0x1000⟩, ⟨.write, 0x1000⟩] := by decide

theorem witness_AccessesComeInOrder_formatS :
    decode (codeAt (start [0x08])) = .ok (.inc ⟨.indirect, .r0⟩, [0x00]) ∧
      stepAccesses (start [0x08]) = [⟨.fetch, 0x0200⟩, ⟨.read, 0⟩, ⟨.write, 0⟩] := by decide

theorem witness_AccessesComeInOrder_unassigned : 0xEC#8 ≤ (start [0xEC]).mem.read (start [0xEC]).pc := by decide

/-- Two different memories that agree on every byte the step fetches or reads; the step writes too. -/
theorem witness_StepDependsOnlyOnItsAccesses :
    addWords.mem.wf = true ∧ (withWord 0x3000 7 addWords).mem.wf = true ∧
      addWords.mem ≠ (withWord 0x3000 7 addWords).mem ∧
      (stepAccesses addWords).all (fun x => x.kind == .write ||
        x.bytes.all (fun a => addWords.mem.read a == (withWord 0x3000 7 addWords).mem.read a)) = true ∧
      (stepAccesses addWords).any (fun x => x.kind == .write) = true := by decide

/-- The same where the step faults. -/
theorem witness_StepDependsOnlyOnItsAccesses_fault :
    (start [0xEC]).mem ≠ (withWord 0x3000 7 (start [0xEC])).mem ∧
      stepAccesses (start [0xEC]) = [⟨.fetch, 0x0200⟩] ∧
      (start [0xEC]).mem.read 0x0200 = (withWord 0x3000 7 (start [0xEC])).mem.read 0x0200 ∧
      faultOf (start [0xEC]) = some (.illegalInstruction 0xEC 0x0200) := by decide

/-- Both clauses at the boundary: the step touches the byte at `0x1003` and none above it. -/
theorem witness_SmallMemoryRefuses :
    let touched := (stepAccesses ((start [0xDA, 0x10]).setReg .r0 0x1000)).flatMap Access.bytes
    touched.all (fun a => decide (a.toNat < 0x1004)) = true ∧
      touched.any (fun a => decide (0x1003 ≤ a.toNat)) = true := by decide

theorem witness_EveryMemoryHasOneForm : (Memory.ofFn (fun _ => 0)).wf = true := Memory.ofFn_wf _

/-- A run that ends; a run of one step refused by a memory of 0x0201 bytes, which ends in the next state where
the memory has one byte more; and one that faults. The halting predicate is true in the first state and false in
the others. -/
theorem witness_HaltIsTestedBeforeEachStep :
    runUntil 65536 (haltAt 0x0200) 0 (start []) = .ended (start []) ∧
      haltAt 0x0201 (start [0xC0, 0x20]) = false ∧
      runUntil 0x0201 (haltAt 0x0202) 1 (start [0xC0, 0x20]) = .refused (.outsideMemory 0x0201 0x0201) ∧
      (match runUntil 0x0202 (haltAt 0x0202) 1 (start [0xC0, 0x20]) with
        | .ended t => t.pc == 0x0202
        | .faulted _ => false
        | .refused _ => false
        | .running _ => false) = true ∧
      runUntil 65536 (haltAt 0x0201) 1 (start [0xEC]) = .faulted (.illegalInstruction 0xEC 0x0200) := by decide

end Sys2Proof.Tests
end

namespace Sys2Proof

/-! ## Register fields (R12): `Reg.bits` and `Reg.ofBits` are inverse to each other -/

@[simp] theorem Reg.ofBits_bits (r : Reg) : Reg.ofBits r.bits = r := by
  cases r <;> rfl

/-- No value of the field is reserved: each is the field of the register it names. -/
@[simp] theorem Reg.bits_ofBits (b : BitVec 3) : (Reg.ofBits b).bits = b := by
  revert b
  decide

/-- Settles O1: each row of the table is `Reg.ofBits_bits` at the row's register. -/
theorem registerFieldIsRegisterNumber : Obligations.RegisterFieldIsRegisterNumber :=
  ⟨Reg.ofBits_bits .r0, Reg.ofBits_bits .r1, Reg.ofBits_bits .r2, Reg.ofBits_bits .r3,
    Reg.ofBits_bits .r4, Reg.ofBits_bits .r5, Reg.ofBits_bits .r6, Reg.ofBits_bits .r7,
    Reg.bits_ofBits, Reg.ofBits_bits⟩

end Sys2Proof

namespace Sys2Proof

/-! ## The leading field of a bit string

An opcode that stands leftmost in a string covers a range of strings and a match under a mask (the columns of
30_encoding.md section 4), for fields of every width. -/

theorem toNat_append_eq_add {w v : Nat} (x : BitVec w) (y : BitVec v) :
    (x ++ y).toNat = x.toNat * 2 ^ v + y.toNat := by
  rw [BitVec.toNat_append, ← Nat.shiftLeft_add_eq_or_of_lt y.isLt, Nat.shiftLeft_eq]

/-- The strings that begin with `op` are those from `op` with zeros after it to `op` with ones after it. -/
theorem leadingField_eq_iff_range {w v : Nat} (b : BitVec (w + v)) (op : BitVec w) :
    b.extractLsb' v w = op ↔ op ++ 0#v ≤ b ∧ b ≤ op ++ BitVec.allOnes v := by
  have hb : b.toNat = (b.extractLsb' v w).toNat * 2 ^ v + (b.extractLsb' 0 v).toNat := by
    rw [← toNat_append_eq_add, BitVec.extractLsb'_append_extractLsb']
  have hlow := (b.extractLsb' 0 v).isLt
  rw [BitVec.le_def, BitVec.le_def, toNat_append_eq_add, toNat_append_eq_add, BitVec.toNat_allOnes,
    BitVec.toNat_ofNat, Nat.zero_mod, Nat.add_zero, hb]
  constructor
  · rintro rfl
    omega
  · rintro ⟨hlo, hhi⟩
    have hle : op.toNat < (b.extractLsb' v w).toNat + 1 :=
      Nat.lt_of_mul_lt_mul_right (a := 2 ^ v) (by rw [Nat.succ_mul]; omega)
    have hge : (b.extractLsb' v w).toNat < op.toNat + 1 :=
      Nat.lt_of_mul_lt_mul_right (a := 2 ^ v) (by rw [Nat.succ_mul]; omega)
    exact BitVec.eq_of_toNat_eq (by omega)

/-- The mask with ones over the leading field keeps that field and clears what follows it. -/
theorem and_leadingMask {w v : Nat} (b : BitVec (w + v)) :
    b &&& (BitVec.allOnes w ++ 0#v) = b.extractLsb' v w ++ 0#v := by
  calc b &&& (BitVec.allOnes w ++ 0#v)
      = (b.extractLsb' v w ++ b.extractLsb' 0 v) &&& (BitVec.allOnes w ++ 0#v) := by
        rw [BitVec.extractLsb'_append_extractLsb']
    _ = b.extractLsb' v w ++ 0#v := by
        rw [BitVec.and_append, BitVec.and_allOnes, BitVec.and_zero]

theorem leadingField_eq_iff_masked {w v : Nat} (b : BitVec (w + v)) (op : BitVec w) :
    b.extractLsb' v w = op ↔ b &&& (BitVec.allOnes w ++ 0#v) = op ++ 0#v := by
  rw [and_leadingMask, BitVec.append_left_inj]

/-! ## The mode field (R55) and the operand of format S (R51) -/

/-- No value of the field is reserved: each is the field of the mode it names. -/
@[simp] theorem Mode.bits_ofBits (b : BitVec 2) : (Mode.ofBits b).bits = b := by
  revert b
  decide

@[simp] theorem operandS_mode_bits (b0 : Byte) : (operandS b0).mode.bits = b0.extractLsb' 3 2 :=
  Mode.bits_ofBits _

@[simp] theorem operandS_reg_bits (b0 : Byte) : (operandS b0).reg.bits = b0.extractLsb' 0 3 :=
  Reg.bits_ofBits _

/-! ## The opcode of format S (R58) and the marker of format D (R53) -/

/-- The opcodes `110` and `111` are those that format S leaves to format D. -/
theorem singleOp_isNone_iff (op : BitVec 3) : (singleOp op).isNone = true ↔ op = 0b110#3 ∨ op = 0b111#3 := by
  revert op
  decide

/-- The three fields by which a first byte is classified are, in arithmetic, quotients of the byte. -/
theorem toNat_opcodeS (b0 : Byte) : (b0.extractLsb' 5 3).toNat = b0.toNat / 32 := by
  rw [BitVec.extractLsb'_toNat, Nat.shiftRight_eq_div_pow]
  have := b0.isLt
  omega

theorem toNat_marker (b0 : Byte) : (b0.extractLsb' 6 2).toNat = b0.toNat / 64 := by
  rw [BitVec.extractLsb'_toNat, Nat.shiftRight_eq_div_pow]
  have := b0.isLt
  omega

theorem toNat_opcodeD (b0 : Byte) : (b0.extractLsb' 2 4).toNat = b0.toNat / 4 % 16 := by
  rw [BitVec.extractLsb'_toNat, Nat.shiftRight_eq_div_pow]

theorem isFormatD_iff (b0 : Byte) : isFormatD b0 = true ↔ b0.toNat / 64 = 3 := by
  rw [isFormatD, beq_iff_eq, ← BitVec.toNat_inj, toNat_marker]
  rfl

/-- The marker says format D exactly when the opcode's three bits name no instruction of format S. -/
theorem isFormatD_eq_singleOp_isNone (b0 : Byte) : isFormatD b0 = (singleOp (b0.extractLsb' 5 3)).isNone := by
  rw [Bool.eq_iff_iff, isFormatD_iff, singleOp_isNone_iff, ← BitVec.toNat_inj, ← BitVec.toNat_inj, toNat_opcodeS,
    BitVec.toNat_ofNat, BitVec.toNat_ofNat]
  omega

/-- R51, R53: a first byte whose opcode format S assigns is a whole instruction, whatever follows it. -/
theorem decode_of_singleOp {b0 : Byte} {mk : Operand → Instr} (h : singleOp (b0.extractLsb' 5 3) = some mk)
    (rest : List Byte) : decode (b0 :: rest) = .ok (mk (operandS b0), rest) := by
  have hS : isFormatD b0 = false := by rw [isFormatD_eq_singleOp_isNone, h, Option.isNone_some]
  have hd : decodeS b0 = some (mk (operandS b0)) := by rw [decodeS, h]
  simp [decode, hS, hd]

/-- An assigned opcode of format S makes a row of the table, with the range, match and mask the opcode gives. -/
theorem singleRow_of_singleOp {op : BitVec 3} {mk : Operand → Instr} (h : singleOp op = some mk) :
    SingleRow op (op ++ 0#5) (op ++ BitVec.allOnes 5) (op ++ 0#5) mk := by
  refine ⟨fun b0 => ⟨leadingField_eq_iff_range (v := 5) b0 op, leadingField_eq_iff_masked (v := 5) b0 op⟩, ?_⟩
  rintro b0 rest rfl
  exact ⟨operandS b0, operandS_mode_bits b0, operandS_reg_bits b0, decode_of_singleOp h rest⟩

/-- The first bytes with opcode bits `110` begin the instructions of format D up to opcode `0111`. -/
theorem opcodeS_eq_110_iff (b0 : Byte) :
    b0.extractLsb' 5 3 = 0b110#3 ↔ isFormatD b0 = true ∧ b0.extractLsb' 2 4 ≤ 0b0111#4 := by
  rw [← BitVec.toNat_inj, toNat_opcodeS, isFormatD_iff, BitVec.le_def, toNat_opcodeD, BitVec.toNat_ofNat,
    BitVec.toNat_ofNat]
  omega

/-- The first bytes with opcode bits `111` begin those from opcode `1000` on. -/
theorem opcodeS_eq_111_iff (b0 : Byte) :
    b0.extractLsb' 5 3 = 0b111#3 ↔ isFormatD b0 = true ∧ 0b1000#4 ≤ b0.extractLsb' 2 4 := by
  rw [← BitVec.toNat_inj, toNat_opcodeS, isFormatD_iff, BitVec.le_def, toNat_opcodeD, BitVec.toNat_ofNat,
    BitVec.toNat_ofNat]
  omega

/-- The last row of the table ends at the last byte, so only its lower bound is a condition. -/
theorem opcodeS_eq_111_iff_range (b0 : Byte) : b0.extractLsb' 5 3 = 0b111#3 ↔ 0xE0#8 ≤ b0 :=
  (leadingField_eq_iff_range (v := 5) b0 0b111#3).trans (and_iff_left (BitVec.not_lt.1 BitVec.not_allOnes_lt))

/-- Settles O3: each row of format S is its entry of `singleOp`; the two rows left over are format D's. -/
theorem formatSOpcodeMap : Obligations.FormatSOpcodeMap :=
  ⟨singleRow_of_singleOp (op := 0b000#3) rfl, singleRow_of_singleOp (op := 0b001#3) rfl,
    singleRow_of_singleOp (op := 0b010#3) rfl, singleRow_of_singleOp (op := 0b011#3) rfl,
    singleRow_of_singleOp (op := 0b100#3) rfl, singleRow_of_singleOp (op := 0b101#3) rfl,
    opcodeS_eq_110_iff, opcodeS_eq_111_iff,
    fun b0 => ⟨leadingField_eq_iff_range (v := 5) b0 0b110#3, opcodeS_eq_111_iff_range b0⟩⟩

end Sys2Proof

namespace Sys2Proof.Machine

/-! ## The fetch of one byte (R71) and the step made of it (R70) -/

/-- R71: a byte fetch moves the instruction pointer up by one, around the top of memory. -/
theorem fetch8_pc_toNat (s : State) : (fetch8 s).2.pc.toNat = (s.pc.toNat + 1) % 0x10000 := by
  rw [fetch8_snd, State.pc_setPc, BitVec.toNat_add]
  rfl

/-- A byte fetch writes no register but R7. -/
theorem fetch8_getReg (s : State) {r : Reg} (h : r ≠ .r7) : (fetch8 s).2.getReg r = s.getReg r := by
  rw [fetch8_snd, State.setPc_eq_setReg, State.getReg_setReg_other s _ h]

/-- R53, R70: a byte of format S is the whole fetch. -/
theorem fetchInstr_formatS {s : State} {i : Instr} (hS : isFormatD (fetch8 s).1 = false)
    (hi : decodeS (fetch8 s).1 = some i) : fetchInstr s = .instr i (fetch8 s).2 := by
  simp only [fetchInstr, hS, Bool.false_eq_true, if_false, hi]

/-- R53, R70: after an assigned first byte of format D the fetch takes one more byte, from where the first one
left the instruction pointer. -/
theorem fetchInstr_formatD {s : State} {finish : Byte → Instr} (hD : isFormatD (fetch8 s).1 = true)
    (hf : decodeD (fetch8 s).1 = some finish) :
    fetchInstr s = .instr (finish (fetch8 (fetch8 s).2).1) (fetch8 (fetch8 s).2).2 := by
  simp only [fetchInstr, hD, if_true, hf]

theorem step_of_fetchInstr {s t : State} {i : Instr} (h : fetchInstr s = .instr i t) : step s = exec i t := by
  rw [step, h]

/-- Settles O41: each step is its fetch, by format; a byte of format S always decodes. -/
theorem stepFetchesByteByByte : Obligations.StepFetchesByteByByte := by
  intro s
  refine ⟨fetch8_fst s, fetch8_pc_toNat s, fun _ hr => fetch8_getReg s hr, State.setPc_mem s _,
    State.setPc_z s _, State.setPc_c s _, fun hS => ?formatS,
    fun _ hD hf => step_of_fetchInstr (fetchInstr_formatD hD hf)⟩
  case formatS =>
    obtain ⟨i, hi⟩ := decodeS_of_not_formatD _ hS
    exact ⟨i, hi, step_of_fetchInstr (fetchInstr_formatS hS hi)⟩

/-! ## Predecrement (R76), load and store (R78) -/

/-- Settles O10: the evaluation is one register write, so `State.setReg` has its frame; the load comes after it
and reads at the new value. -/
theorem predecrementOperand : Obligations.PredecrementOperand := by
  intro r s
  rw [evalOperand_predec]
  exact ⟨rfl, State.getReg_setReg_self s r _, fun _ hr => State.getReg_setReg_other s _ hr, State.setReg_z s r _,
    State.setReg_c s r _, State.setReg_mem s r _, load_mem _ _⟩

/-- Settles O14: at a register and at a memory word alike, the store is read back by the load (`load_store`) and
leaves every other location alone. -/
theorem loadAndStore : Obligations.LoadAndStore := by
  intro s v hwf
  refine ⟨fun r => load_reg r s, fun a => load_mem a s, fun r => ⟨?regSelf, fun r' hr => ?regOther, ?regMem⟩,
    fun a => ⟨?memSelf, fun r => ?memReg, fun a' h0 h1 => ?memOther⟩, fun l => ⟨store_z l v s, store_c l v s⟩⟩
  case regSelf => exact load_store (.reg r) v s hwf
  case regOther => exact store_getReg v s fun e => hr (Loc.reg.inj e).symm
  case regMem => rw [store_reg, State.setReg_mem]
  case memSelf => exact load_store (.mem a) v s hwf
  case memReg => exact store_getReg v s nofun
  case memOther => exact store_read v s (by simp [Loc.covers, h0, h1])

end Sys2Proof.Machine

namespace Sys2Proof

/-! ## Three fields in a row

Every byte of the encoding tables (30_encoding.md section 1) is three fields from the left: reading a field of such
a byte, and putting a byte together from its fields. -/

theorem leftField_append {u v w : Nat} (x : BitVec u) (y : BitVec v) (z : BitVec w) :
    (x ++ y ++ z).extractLsb' (w + v) u = x := by
  rw [BitVec.extractLsb'_append_eq_of_le (Nat.le_add_right w v), Nat.add_sub_cancel_left,
    BitVec.extractLsb'_append_eq_left]

theorem middleField_append {u v w : Nat} (x : BitVec u) (y : BitVec v) (z : BitVec w) :
    (x ++ y ++ z).extractLsb' w v = y := by
  rw [BitVec.extractLsb'_append_eq_of_le (Nat.le_refl w), Nat.sub_self, BitVec.extractLsb'_append_eq_right]

/-- Reading all three fields of a byte and writing them in a row gives the byte back. -/
theorem append_fields {u v w : Nat} (b : BitVec (u + v + w)) :
    b.extractLsb' (w + v) u ++ b.extractLsb' w v ++ b.extractLsb' 0 w = b := by
  rw [BitVec.extractLsb'_append_extractLsb'_eq_extractLsb' rfl, BitVec.extractLsb'_append_extractLsb']

theorem append_inj {v w : Nat} {x x' : BitVec v} {y y' : BitVec w} : x ++ y = x' ++ y' ↔ x = x' ∧ y = y' := by
  refine ⟨fun h => ⟨?_, ?_⟩, fun ⟨hx, hy⟩ => by rw [hx, hy]⟩
  · simpa only [BitVec.extractLsb'_append_eq_left] using congrArg (BitVec.extractLsb' w v) h
  · simpa only [BitVec.extractLsb'_append_eq_right] using congrArg (BitVec.extractLsb' 0 w) h

/-! ## The mode field (R55) -/

@[simp] theorem Mode.ofBits_bits (m : Mode) : Mode.ofBits m.bits = m := by
  cases m <;> rfl

theorem Mode.bits_inj {m m' : Mode} : m.bits = m'.bits ↔ m = m' :=
  (Function.LeftInverse.injective Mode.ofBits_bits).eq_iff

theorem Reg.bits_inj {r r' : Reg} : r.bits = r'.bits ↔ r = r' :=
  (Function.LeftInverse.injective Reg.ofBits_bits).eq_iff

/-- R55, R77: the immediate is the one pair of mode and register, and no other. -/
theorem Operand.isImmediate_iff (o : Operand) : o.isImmediate = true ↔ o = ⟨.postinc, .r7⟩ := by
  obtain ⟨m, r⟩ := o
  simp [Operand.isImmediate]

/-- Settles O2: bits and mode determine each other, so the immediate's fields are those of its mode and register. -/
theorem modeFieldSelectsMode : Obligations.ModeFieldSelectsMode := by
  refine ⟨Mode.ofBits_bits .direct, Mode.ofBits_bits .indirect, Mode.ofBits_bits .postinc, Mode.ofBits_bits .predec,
    Mode.bits_ofBits, Mode.ofBits_bits, fun o => ?_⟩
  obtain ⟨m, r⟩ := o
  rw [Operand.isImmediate_iff, Operand.mk.injEq, ← Mode.bits_inj, ← Reg.bits_inj]
  rfl

/-! ## Formats S and D, written and read (R51, R52) -/

theorem operandS_encoded (op : BitVec 3) (o : Operand) : operandS (op ++ o.mode.bits ++ o.reg.bits) = o := by
  have hm : (op ++ o.mode.bits ++ o.reg.bits).extractLsb' 3 2 = o.mode.bits := middleField_append _ _ _
  have hr : (op ++ o.mode.bits ++ o.reg.bits).extractLsb' 0 3 = o.reg.bits := BitVec.extractLsb'_append_eq_right
  rw [operandS, hm, hr, Mode.ofBits_bits, Reg.ofBits_bits]

theorem operandSrc_encoded (dstReg : BitVec 3) (src : Operand) :
    operandSrc (dstReg ++ src.mode.bits ++ src.reg.bits) = src :=
  operandS_encoded dstReg src

theorem operandDst_encoded (op : BitVec 4) (dst src : Operand) :
    operandDst (0b11#2 ++ op ++ dst.mode.bits) (dst.reg.bits ++ src.mode.bits ++ src.reg.bits) = dst := by
  have hm : (0b11#2 ++ op ++ dst.mode.bits).extractLsb' 0 2 = dst.mode.bits := BitVec.extractLsb'_append_eq_right
  have hr : (dst.reg.bits ++ src.mode.bits ++ src.reg.bits).extractLsb' 5 3 = dst.reg.bits := leftField_append _ _ _
  rw [operandDst, hm, hr, Mode.ofBits_bits, Reg.ofBits_bits]

/-- R52, R53, R59: a first byte with the marker and an assigned opcode, and the byte after it, are a whole
instruction, whatever follows them. -/
theorem decode_of_doubleOp {b0 : Byte} {mk : Operand → Operand → Instr} (hD : isFormatD b0 = true)
    (h : doubleOp (b0.extractLsb' 2 4) = some mk) (b1 : Byte) (rest : List Byte) :
    decode (b0 :: b1 :: rest) = .ok (mk (operandDst b0 b1) (operandSrc b1), rest) := by
  simp [decode, hD, decodeD, h]

/-- R60: a first byte with the marker and an unassigned opcode is rejected by name, whatever follows it. -/
theorem decode_of_doubleOp_none {b0 : Byte} (hD : isFormatD b0 = true) (h : doubleOp (b0.extractLsb' 2 4) = none)
    (rest : List Byte) : decode (b0 :: rest) = .error (.unassigned b0) := by
  simp [decode, hD, decodeD, h]

theorem decode_encodeS {op : BitVec 3} {mk : Operand → Instr} (h : singleOp op = some mk) (o : Operand)
    (rest : List Byte) : decode (encodeS op o ++ rest) = .ok (mk o, rest) := by
  have hop : (op ++ o.mode.bits ++ o.reg.bits).extractLsb' 5 3 = op := leftField_append _ _ _
  rw [← hop] at h
  rw [encodeS, List.singleton_append, decode_of_singleOp h, operandS_encoded]

theorem decode_encodeD {op : BitVec 4} {mk : Operand → Operand → Instr} (h : doubleOp op = some mk)
    (dst src : Operand) (rest : List Byte) : decode (encodeD op dst src ++ rest) = .ok (mk dst src, rest) := by
  have hmark : (0b11#2 ++ op ++ dst.mode.bits).extractLsb' 6 2 = 0b11#2 := leftField_append _ _ _
  have hop : (0b11#2 ++ op ++ dst.mode.bits).extractLsb' 2 4 = op := middleField_append _ _ _
  have hD : isFormatD (0b11#2 ++ op ++ dst.mode.bits) = true := by rw [isFormatD, hmark]; rfl
  rw [← hop] at h
  rw [encodeD, List.cons_append, List.singleton_append, decode_of_doubleOp hD h, operandDst_encoded,
    operandSrc_encoded]

/-! ## The encoder follows the opcode tables (R58, R59) -/

/-- Each instruction is its row of the table of its format. -/
theorem Instr.row (i : Instr) :
    (∃ op mk o, singleOp op = some mk ∧ i = mk o ∧ encode i = encodeS op o ∧ i.operands = [o]) ∨
      ∃ op mk dst src, doubleOp op = some mk ∧ i = mk dst src ∧ encode i = encodeD op dst src ∧
        i.operands = [src, dst] := by
  cases i with
  | inc o => exact .inl ⟨0b000, .inc, o, rfl, rfl, rfl, rfl⟩
  | dec o => exact .inl ⟨0b001, .dec, o, rfl, rfl, rfl, rfl⟩
  | neg o => exact .inl ⟨0b010, .neg, o, rfl, rfl, rfl, rfl⟩
  | not o => exact .inl ⟨0b011, .not, o, rfl, rfl, rfl, rfl⟩
  | lsh o => exact .inl ⟨0b100, .lsh, o, rfl, rfl, rfl, rfl⟩
  | rsh o => exact .inl ⟨0b101, .rsh, o, rfl, rfl, rfl, rfl⟩
  | mov dst src => exact .inr ⟨0b0000, .mov, dst, src, rfl, rfl, rfl, rfl⟩
  | cmoveq dst src => exact .inr ⟨0b0001, .cmoveq, dst, src, rfl, rfl, rfl, rfl⟩
  | cmovlt dst src => exact .inr ⟨0b0010, .cmovlt, dst, src, rfl, rfl, rfl, rfl⟩
  | cmovgt dst src => exact .inr ⟨0b0011, .cmovgt, dst, src, rfl, rfl, rfl, rfl⟩
  | call dst src => exact .inr ⟨0b0100, .call, dst, src, rfl, rfl, rfl, rfl⟩
  | cmp dst src => exact .inr ⟨0b0101, .cmp, dst, src, rfl, rfl, rfl, rfl⟩
  | add dst src => exact .inr ⟨0b0110, .add, dst, src, rfl, rfl, rfl, rfl⟩
  | sub dst src => exact .inr ⟨0b0111, .sub, dst, src, rfl, rfl, rfl, rfl⟩
  | and dst src => exact .inr ⟨0b1000, .and, dst, src, rfl, rfl, rfl, rfl⟩
  | or dst src => exact .inr ⟨0b1001, .or, dst, src, rfl, rfl, rfl, rfl⟩
  | xor dst src => exact .inr ⟨0b1010, .xor, dst, src, rfl, rfl, rfl, rfl⟩

/-- Settles O5: an instruction is a row of its format's table, and a row of either format is read as written. -/
theorem decodeOfEncode : Obligations.DecodeOfEncode := by
  intro i rest
  rcases i.row with ⟨op, mk, o, hop, rfl, henc, -⟩ | ⟨op, mk, dst, src, hop, rfl, henc, -⟩
  · rw [henc, decode_encodeS hop]
  · rw [henc, decode_encodeD hop]

/-- All that decoding can read: a byte of format S with an assigned opcode, or two bytes of format D with one. -/
theorem decode_cases {i : Instr} {bs rest : List Byte} (h : decode bs = .ok (i, rest)) :
    (∃ b0 mk, bs = b0 :: rest ∧ isFormatD b0 = false ∧ singleOp (b0.extractLsb' 5 3) = some mk ∧
        i = mk (operandS b0)) ∨
      ∃ b0 b1 mk, bs = b0 :: b1 :: rest ∧ isFormatD b0 = true ∧ doubleOp (b0.extractLsb' 2 4) = some mk ∧
        i = mk (operandDst b0 b1) (operandSrc b1) := by
  cases bs with
  | nil => cases h
  | cons b0 tail =>
    cases hf : isFormatD b0 with
    | false =>
      rw [isFormatD_eq_singleOp_isNone, Option.isNone_eq_false_iff, Option.isSome_iff_exists] at hf
      obtain ⟨mk, hmk⟩ := hf
      rw [decode_of_singleOp hmk] at h
      cases h
      exact .inl ⟨b0, mk, rfl, by rw [isFormatD_eq_singleOp_isNone, hmk, Option.isNone_some], hmk, rfl⟩
    | true =>
      cases hop : doubleOp (b0.extractLsb' 2 4) with
      | none => rw [decode_of_doubleOp_none hf hop] at h; cases h
      | some mk =>
        cases tail with
        | nil => simp [decode, hf, decodeD, hop] at h
        | cons b1 tail =>
          rw [decode_of_doubleOp hf hop] at h
          cases h
          exact .inr ⟨b0, b1, mk, rfl, hf, hop, rfl⟩

theorem encode_of_singleOp {op : BitVec 3} {mk : Operand → Instr} (h : singleOp op = some mk) (o : Operand) :
    encode (mk o) = encodeS op o := by
  obtain ⟨⟨k, hk⟩⟩ := op
  interval_cases k <;> cases h <;> rfl

theorem encode_of_doubleOp {op : BitVec 4} {mk : Operand → Operand → Instr} (h : doubleOp op = some mk)
    (dst src : Operand) : encode (mk dst src) = encodeD op dst src := by
  obtain ⟨⟨k, hk⟩⟩ := op
  interval_cases k <;> cases h <;> rfl

theorem operandDst_mode_bits (b0 b1 : Byte) : (operandDst b0 b1).mode.bits = b0.extractLsb' 0 2 :=
  Mode.bits_ofBits _

theorem operandDst_reg_bits (b0 b1 : Byte) : (operandDst b0 b1).reg.bits = b1.extractLsb' 5 3 :=
  Reg.bits_ofBits _

theorem operandSrc_mode_bits (b1 : Byte) : (operandSrc b1).mode.bits = b1.extractLsb' 3 2 :=
  Mode.bits_ofBits _

theorem operandSrc_reg_bits (b1 : Byte) : (operandSrc b1).reg.bits = b1.extractLsb' 0 3 :=
  Reg.bits_ofBits _

theorem encodeS_fields (b0 : Byte) : encodeS (b0.extractLsb' 5 3) (operandS b0) = [b0] := by
  have h : b0.extractLsb' 5 3 ++ b0.extractLsb' 3 2 ++ b0.extractLsb' 0 3 = b0 :=
    append_fields (u := 3) (v := 2) (w := 3) b0
  rw [encodeS, operandS_mode_bits, operandS_reg_bits, h]

theorem encodeD_fields {b0 : Byte} (h : isFormatD b0 = true) (b1 : Byte) :
    encodeD (b0.extractLsb' 2 4) (operandDst b0 b1) (operandSrc b1) = [b0, b1] := by
  have h0 : b0.extractLsb' 6 2 ++ b0.extractLsb' 2 4 ++ b0.extractLsb' 0 2 = b0 :=
    append_fields (u := 2) (v := 4) (w := 2) b0
  have h1 : b1.extractLsb' 5 3 ++ b1.extractLsb' 3 2 ++ b1.extractLsb' 0 3 = b1 :=
    append_fields (u := 3) (v := 2) (w := 3) b1
  have hmark : b0.extractLsb' 6 2 = 0b11#2 := by simpa [isFormatD] using h
  rw [encodeD, operandDst_mode_bits, operandDst_reg_bits, operandSrc_mode_bits, operandSrc_reg_bits, ← hmark, h0, h1]

/-- Settles O6: what was decoded is a row of a format, and that row's encoding writes back the fields just read. -/
theorem encodeOfDecode : Obligations.EncodeOfDecode := by
  intro i bs rest h
  rcases decode_cases h with ⟨b0, mk, rfl, -, hop, rfl⟩ | ⟨b0, b1, mk, rfl, hD, hop, rfl⟩
  · rw [encode_of_singleOp hop, encodeS_fields, List.singleton_append]
  · rw [encode_of_doubleOp hop, encodeD_fields hD, List.cons_append, List.singleton_append]

/-- Settles O8: each printed word is what the encoder writes for the instruction printed beside it. -/
theorem printedWordsDecode : Obligations.PrintedWordsDecode :=
  ⟨decodeOfEncode (.inc ⟨.direct, .r0⟩) [], decodeOfEncode (.dec ⟨.predec, .r0⟩) [],
    decodeOfEncode (.mov ⟨.direct, .r1⟩ ⟨.direct, .r0⟩) [],
    decodeOfEncode (.call ⟨.postinc, .r6⟩ ⟨.postinc, .r7⟩) [],
    decodeOfEncode (.cmp ⟨.postinc, .r7⟩ ⟨.direct, .r0⟩) [],
    decodeOfEncode (.xor ⟨.direct, .r1⟩ ⟨.indirect, .r0⟩) []⟩

/-! ## Immediate words (R56) -/

/-- Words laid out in memory order are read back as those words. -/
theorem takeWords_flatMap_wordBytes (ws : List Word) (rest : List Byte) :
    takeWords ws.length (ws.flatMap wordBytes ++ rest) = .ok (ws, rest) := by
  induction ws with
  | nil => rfl
  | cons v ws ih =>
    have hcons : (v :: ws).flatMap wordBytes ++ rest =
        v.extractLsb' 0 8 :: v.extractLsb' 8 8 :: (ws.flatMap wordBytes ++ rest) := rfl
    rw [hcons, List.length_cons, takeWords, ih]
    simp only [Machine.word_of_bytes]

/-- Settles O7: the instruction's own bytes are read back by `decodeOfEncode`; its number of immediates is the number
of words that follow. -/
theorem decodeOfEncodeWithImmediates : Obligations.DecodeOfEncodeWithImmediates := by
  rintro ⟨i, ws⟩ rest hwf
  have hlen : i.immediates = ws.length := (beq_iff_eq.1 hwf).symm
  rw [encodeCode, List.append_assoc, decodeCode, decodeOfEncode]
  simp only [hlen, takeWords_flatMap_wordBytes]

/-! ## The opcode map of format D (R59, R60) -/

/-- Marker and opcode together are the leading six bits of the first byte. -/
theorem marker_opcode_iff (b0 : Byte) (op : BitVec 4) :
    b0.extractLsb' 6 2 = 3#2 ∧ b0.extractLsb' 2 4 = op ↔ b0.extractLsb' 2 6 = 3#2 ++ op := by
  have hsix : b0.extractLsb' 6 2 ++ b0.extractLsb' 2 4 = b0.extractLsb' 2 6 :=
    BitVec.extractLsb'_append_extractLsb'_eq_extractLsb' rfl
  rw [← hsix, append_inj]

theorem isFormatD_of_marker {b0 : Byte} (h : b0.extractLsb' 6 2 = 3#2) : isFormatD b0 = true := by
  rw [isFormatD, h]
  rfl

/-- An assigned opcode of format D makes a row of the table, with the range, match and mask the opcode gives. -/
theorem doubleRow_of_doubleOp {op : BitVec 4} {mk : Operand → Operand → Instr} (h : doubleOp op = some mk) :
    DoubleRow op (3#2 ++ op ++ 0#2) (3#2 ++ op ++ BitVec.allOnes 2) (3#2 ++ op ++ 0#10) mk := by
  refine ⟨fun b0 b1 => ⟨?range, ?masked⟩, ?decodes⟩
  case range => exact (marker_opcode_iff b0 op).trans (leadingField_eq_iff_range (v := 2) b0 (3#2 ++ op))
  case masked =>
    have hfirst : (b0 ++ b1 : Word).extractLsb' 10 6 = b0.extractLsb' 2 6 :=
      BitVec.extractLsb'_append_eq_of_le (by decide)
    rw [marker_opcode_iff, ← hfirst]
    exact leadingField_eq_iff_masked (v := 10) (b0 ++ b1 : Word) (3#2 ++ op)
  case decodes =>
    rintro b0 b1 rest hmark rfl
    exact ⟨operandDst b0 b1, operandSrc b1, operandDst_mode_bits b0 b1, operandDst_reg_bits b0 b1,
      operandSrc_mode_bits b1, operandSrc_reg_bits b1, decode_of_doubleOp (isFormatD_of_marker hmark) h b1 rest⟩

/-- An unassigned opcode makes a rejected row, with the range the opcode gives. -/
theorem unassignedRow_of_doubleOp {op : BitVec 4} (h : doubleOp op = none) :
    UnassignedRow op (3#2 ++ op ++ 0#2) (3#2 ++ op ++ BitVec.allOnes 2) := by
  intro b0 rest
  have hrange := (marker_opcode_iff b0 op).trans (leadingField_eq_iff_range (v := 2) b0 (3#2 ++ op))
  refine ⟨hrange, fun hlo hhi => ?_⟩
  obtain ⟨hmark, rfl⟩ := hrange.2 ⟨hlo, hhi⟩
  exact decode_of_doubleOp_none (isFormatD_of_marker hmark) h rest

/-- Settles O4: each row of format D, assigned or not, is its entry of `doubleOp`. -/
theorem formatDOpcodeMap : Obligations.FormatDOpcodeMap :=
  ⟨doubleRow_of_doubleOp (op := 0b0000#4) rfl, doubleRow_of_doubleOp (op := 0b0001#4) rfl,
    doubleRow_of_doubleOp (op := 0b0010#4) rfl, doubleRow_of_doubleOp (op := 0b0011#4) rfl,
    doubleRow_of_doubleOp (op := 0b0100#4) rfl, doubleRow_of_doubleOp (op := 0b0101#4) rfl,
    doubleRow_of_doubleOp (op := 0b0110#4) rfl, doubleRow_of_doubleOp (op := 0b0111#4) rfl,
    doubleRow_of_doubleOp (op := 0b1000#4) rfl, doubleRow_of_doubleOp (op := 0b1001#4) rfl,
    doubleRow_of_doubleOp (op := 0b1010#4) rfl,
    unassignedRow_of_doubleOp (op := 0b1011#4) rfl, unassignedRow_of_doubleOp (op := 0b1100#4) rfl,
    unassignedRow_of_doubleOp (op := 0b1101#4) rfl, unassignedRow_of_doubleOp (op := 0b1110#4) rfl,
    unassignedRow_of_doubleOp (op := 0b1111#4) rfl⟩

end Sys2Proof

namespace Sys2Proof.Machine

/-! ## Words of memory (R33, R37) -/

/-- R33: the byte at the higher address weighs `0x100`. -/
theorem Memory.readWord_toNat (m : Memory) (a : Word) :
    (m.readWord a).toNat = (m.read a).toNat + 0x100 * (m.read (a + 1#16)).toNat := by
  rw [Memory.readWord, toNat_append_eq_add]
  omega

/-- A word depends on its own two bytes only. -/
theorem Memory.readWord_congr {m m' : Memory} {a : Word} (h0 : m.read a = m'.read a)
    (h1 : m.read (a + 1#16) = m'.read (a + 1#16)) : m.readWord a = m'.readWord a := by
  rw [Memory.readWord, Memory.readWord, h0, h1]

theorem Memory.read_writeWord_low (m : Memory) (a v : Word) (h : m.wf = true) :
    (m.writeWord a v).read a = v.extractLsb' 0 8 := by
  rw [Memory.read_writeWord m a v a h, if_neg (succ_ne a).symm, if_pos rfl]

theorem Memory.read_writeWord_high (m : Memory) (a v : Word) (h : m.wf = true) :
    (m.writeWord a v).read (a + 1#16) = v.extractLsb' 8 8 := by
  rw [Memory.read_writeWord m a v _ h, if_pos rfl]

/-- A second write of the same word is the only one that counts. -/
theorem Memory.writeWord_writeWord (m : Memory) (a v w : Word) (h : m.wf = true) :
    (m.writeWord a v).writeWord a w = m.writeWord a w := by
  have hv := Memory.writeWord_wf m a v h
  refine Memory.ext_read (Memory.writeWord_wf _ a w hv) (Memory.writeWord_wf m a w h) fun a' => ?_
  rw [Memory.read_writeWord _ a w a' hv, Memory.read_writeWord m a w a' h, Memory.read_writeWord m a v a' h]
  split_ifs <;> rfl

theorem toNat_lowByte (v : Word) : (v.extractLsb' 0 8).toNat = v.toNat % 0x100 := by
  rw [BitVec.extractLsb'_toNat, Nat.shiftRight_zero]

theorem toNat_highByte (v : Word) : (v.extractLsb' 8 8).toNat = v.toNat / 0x100 := by
  rw [BitVec.extractLsb'_toNat, Nat.shiftRight_eq_div_pow]
  have := v.isLt
  omega

/-- Settles O15: reading and writing a word, byte by byte; the address after the last is `0`, since addresses are
words themselves. -/
theorem wordsAreLittleEndian : Obligations.WordsAreLittleEndian := by
  intro m a v hwf
  refine ⟨Memory.readWord_toNat m a, ?_, ?_, fun a' h0 h1 => Memory.read_writeWord_other m v h0 h1⟩
  · rw [Memory.read_writeWord_low m a v hwf, toNat_lowByte]
  · rw [Memory.read_writeWord_high m a v hwf, toNat_highByte]

/-- Settles O52: a fetch reads the one memory that a store writes. -/
theorem fetchSeesStores : Obligations.FetchSeesStores := by
  intro s a v hwf
  simp only [fetch8_fst, State.setPc_mem, State.pc_setPc, store_mem, State.setMem_mem]
  exact ⟨Memory.read_writeWord_low s.mem a v hwf, Memory.read_writeWord_high s.mem a v hwf⟩

/-! ## Launch and reset (R140) -/

@[simp] theorem Memory.read_ofFn (f : Word → Byte) (a : Word) : (Memory.ofFn f).read a = f a := by
  have h := findByte_cellsFrom f 0 Config.memBytes a.toNat (Nat.zero_add _).le (Nat.zero_le _)
    (by rw [Nat.zero_add]; exact word_lt_memBytes a)
  rwa [BitVec.ofNat_toNat, BitVec.setWidth_eq] at h

@[simp] theorem Registers.get_ofFn (f : Reg → Word) (r : Reg) : (Registers.ofFn f).get r = f r := by
  cases r <;> rfl

/-- A canonical memory that reads as `f` everywhere is the memory made of `f`. -/
theorem Memory.eq_ofFn {m : Memory} {f : Word → Byte} (h : m.wf = true) (hf : ∀ a, m.read a = f a) :
    m = Memory.ofFn f :=
  Memory.ext_read h (Memory.ofFn_wf f) fun a => by rw [hf, Memory.read_ofFn]

/-- Settles O46: the memory made of the given bytes is the one. -/
theorem everyMemoryHasOneForm : Obligations.EveryMemoryHasOneForm := fun f =>
  ⟨Memory.ofFn f, ⟨Memory.ofFn_wf f, Memory.read_ofFn f⟩, fun _ hwf hf => Memory.eq_ofFn hwf hf⟩

/-- Settles O47: registers and memory read back the functions they are made of. -/
theorem launchTakesItsParameters : Obligations.LaunchTakesItsParameters := fun initR _ _ initMem =>
  ⟨Registers.get_ofFn initR, Registers.get_ofFn initR .r7, rfl, rfl, Memory.read_ofFn initMem,
    Memory.ofFn_wf initMem⟩

/-- Settles O45: the memory of the reset state lists no byte at all. -/
theorem resetMemoryCanonical : Obligations.ResetMemoryCanonical := rfl

/-- Settles O48: no byte listed is every byte zero, and a canonical memory is fixed by its bytes. -/
theorem resetIsAllZeroLaunch : Obligations.ResetIsAllZeroLaunch := by
  have hmem : State.reset.mem = Memory.ofFn fun _ => 0 := Memory.eq_ofFn resetMemoryCanonical fun _ => rfl
  calc State.reset = { State.reset with mem := State.reset.mem } := rfl
    _ = launch (fun _ => 0) false false (fun _ => 0) := by rw [hmem]; rfl

/-! ## The addressing modes (R73 to R77) -/

/-- Settles O9: the location is the register's value as an address. -/
theorem indirectOperand : Obligations.IndirectOperand := fun r s => ⟨evalOperand_indirect r s, load_mem _ s⟩

/-- Settles O11: the evaluation is one register write, so `State.setReg` has its frame; the location is the value
before it. -/
theorem postincrementOperand : Obligations.PostincrementOperand := by
  intro r s
  rw [evalOperand_postinc]
  exact ⟨rfl, State.getReg_setReg_self s r _, fun _ hr => State.getReg_setReg_other s _ hr, State.setReg_z s r _,
    State.setReg_c s r _, State.setReg_mem s r _, load_mem _ _⟩

/-- Settles O12: the register itself is the location, whatever state it is loaded in. -/
theorem directOperand : Obligations.DirectOperand := fun r s later => ⟨evalOperand_direct r s, load_reg r later⟩

/-- Only the operand's own register is updated, and only in the two modes that move it. -/
theorem modifies_iff (o : Operand) (r : Reg) :
    o.modifies r = true ↔ r = o.reg ∧ (o.mode = .postinc ∨ o.mode = .predec) := by
  simp [Operand.modifies, and_comm, @eq_comm _ r]

/-- Settles O13: all of it but the last clause is what `evalOperand_cases` allows. -/
theorem evaluationFrame : Obligations.EvaluationFrame := fun o s =>
  ⟨evalOperand_mem o s, evalOperand_z o s, evalOperand_c o s, fun _ hr => evalOperand_getReg o s hr,
    fun r hr => (modifies_iff o r).1 hr⟩

/-! ## The flag rule (R82) -/

/-- Settles O16: the rule's two flags are the only fields it writes. -/
theorem flagRule : Obligations.FlagRule := fun n s =>
  ⟨zeroFlag_iff n, carryFlag_iff n, setFlags_regs n s, setFlags_mem n s⟩

end Sys2Proof.Machine

namespace Sys2Proof.Machine

/-! ## Results in arithmetic (R6, R82) -/

/-- The unbounded result `n` is the word `v` after narrowing and sets the flags to `z` and `c`. -/
def Narrows (n : Int) (v : Word) (z c : Bool) : Prop :=
  wrap16 n = v ∧ zeroFlag n = z ∧ carryFlag n = c

/-- `Narrows` in plain arithmetic. -/
theorem Narrows.of_arith {n : Int} {v : Word} {z c : Bool} (hv : n % 65536 = v.toNat)
    (hz : n % 65536 = 0 ↔ z = true) (hc : n < 0 ∨ 65535 < n ↔ c = true) : Narrows n v z c :=
  ⟨wrap16_eq hv, Bool.eq_iff_iff.2 ((zeroFlag_iff n).trans hz), Bool.eq_iff_iff.2 ((carryFlag_iff n).trans hc)⟩

/-- A result that is a word already never carries. -/
theorem narrows_word (v : Word) : Narrows v.toNat v (v == 0#16) false :=
  ⟨wrap16_word v, zeroFlag_word v, carryFlag_word v⟩

theorem narrows_inc (a : Word) :
    Narrows ((a.toNat : Int) + 1) (a + 1#16) (a == 0xFFFF#16) (a == 0xFFFF#16) :=
  .of_arith (by bv_omega) (by rw [beq_iff_eq]; bv_omega) (by rw [beq_iff_eq]; bv_omega)

theorem narrows_dec (a : Word) : Narrows ((a.toNat : Int) - 1) (a - 1#16) (a == 1#16) (a == 0#16) :=
  .of_arith (by bv_omega) (by rw [beq_iff_eq]; bv_omega) (by rw [beq_iff_eq]; bv_omega)

theorem narrows_neg (a : Word) : Narrows ((0xFFFF - (a.toNat : Int)) + 1) (-a) (a == 0#16) (a == 0#16) :=
  .of_arith (by bv_omega) (by rw [beq_iff_eq]; bv_omega) (by rw [beq_iff_eq]; bv_omega)

theorem toNat_complement (a : Word) : (0xFFFF - (a.toNat : Int)) = ((~~~a).toNat : Int) := by
  bv_omega

theorem narrows_not (a : Word) : Narrows (0xFFFF - (a.toNat : Int)) (~~~a) (a == 0xFFFF#16) false := by
  have hz : (~~~a == 0#16) = (a == 0xFFFF#16) := by
    rw [Bool.eq_iff_iff, beq_iff_eq, beq_iff_eq]
    bv_omega
  rw [toNat_complement, ← hz]
  exact narrows_word _

theorem narrows_lsh (a : Word) :
    Narrows (2 * (a.toNat : Int)) (a <<< 1) (a == 0#16 || a == 0x8000#16) (a.getLsbD 15) := by
  have htop : a.getLsbD 15 = true ↔ 0x8000 ≤ a.toNat := by
    rw [← BitVec.msb_eq_getLsbD_last, BitVec.msb_eq_decide, decide_eq_true_iff]
  refine .of_arith ?_ ?_ ?_
  · rw [BitVec.toNat_shiftLeft, Nat.shiftLeft_eq]
    omega
  · simp only [Bool.or_eq_true, beq_iff_eq]
    bv_omega
  · rw [htop]
    omega

theorem narrows_rsh (a : Word) : Narrows ((a.toNat / 2 : Nat) : Int) (a >>> 1) (decide (a ≤ 1#16)) false := by
  have hhalf : (a >>> 1).toNat = a.toNat / 2 := by
    rw [BitVec.toNat_ushiftRight, Nat.shiftRight_eq_div_pow, Nat.pow_one]
  have hz : (a >>> 1 == 0#16) = decide (a ≤ 1#16) := by
    rw [Bool.eq_iff_iff, beq_iff_eq, decide_eq_true_iff, ← BitVec.toNat_inj, hhalf, BitVec.le_def,
      BitVec.toNat_ofNat, BitVec.toNat_ofNat]
    omega
  rw [← hhalf, ← hz]
  exact narrows_word _

theorem narrows_add (d v : Word) :
    Narrows ((d.toNat : Int) + v.toNat) (d + v) (d + v == 0#16) (decide (0xFFFF < d.toNat + v.toNat)) :=
  .of_arith (by bv_omega) (by rw [beq_iff_eq]; bv_omega) (by rw [decide_eq_true_iff]; bv_omega)

theorem narrows_sub (d v : Word) :
    Narrows ((d.toNat : Int) - v.toNat) (d - v) (d == v) (decide (d < v)) :=
  .of_arith (by bv_omega) (by rw [beq_iff_eq]; bv_omega) (by rw [decide_eq_true_iff]; bv_omega)

theorem or_eq_zero_iff (d v : Word) : (d ||| v == 0#16) = (d == 0#16 && v == 0#16) := by
  rw [Bool.eq_iff_iff, Bool.and_eq_true, beq_iff_eq, beq_iff_eq, beq_iff_eq, BitVec.or_eq_zero_iff]

theorem xor_eq_zero_iff (d v : Word) : (d ^^^ v == 0#16) = (d == v) := by
  rw [Bool.eq_iff_iff, beq_iff_eq, beq_iff_eq, BitVec.xor_eq_zero_iff]

/-! ## Single-operand instructions (R90 to R95) -/

/-- R79: the whole of a format S instruction's result follows from what its function narrows to. -/
theorem modify_result {i : Instr} {f : Word → Int} {o : Operand} {s : State} {v : Word} {z c : Bool}
    (hexec : exec i s = .next (modifyOperand f o s)) (hwf : s.mem.wf = true)
    (hn : Narrows (f (load (evalOperand o s).1 (evalOperand o s).2)) v z c) :
    ∃ t, exec i s = .next t ∧ load (evalOperand o s).1 t = v ∧ t.z = z ∧ t.c = c ∧
      ChangesOnlyAt (evalOperand o s).1 [o] s (evalOperand o s).2 t := by
  obtain ⟨hv, hz, hc⟩ := hn
  obtain ⟨hload, hZ, hC, hframe⟩ := modifyOperand_spec f o s hwf
  exact ⟨_, hexec, hload.trans hv, hZ.trans hz, hC.trans hc, hframe⟩

/-- Settles O17: both flags tell the one operand that wraps. -/
theorem incResult : Obligations.IncResult := fun _ _ hwf => modify_result rfl hwf (narrows_inc _)

/-- Settles O18: `Z` tells the operand that reaches 0, `C` the one that passes it. -/
theorem decResult : Obligations.DecResult := fun _ _ hwf => modify_result rfl hwf (narrows_dec _)

/-- Settles O19: the unbounded result passes `0xFFFF` at 0 alone, which is where the word is 0. -/
theorem negResult : Obligations.NegResult := fun _ _ hwf => modify_result rfl hwf (narrows_neg _)

/-- Settles O20: the result is a word already, so nothing carries. -/
theorem notResult : Obligations.NotResult := fun _ _ hwf => modify_result rfl hwf (narrows_not _)

/-- Settles O21: bit 15 is what the doubled operand has above `0xFFFF`. -/
theorem lshResult : Obligations.LshResult := fun _ _ hwf => modify_result rfl hwf (narrows_lsh _)

/-- Settles O22: the half is a word already, so nothing carries. -/
theorem rshResult : Obligations.RshResult := fun _ _ hwf => modify_result rfl hwf (narrows_rsh _)

/-! ## The same operand twice -/

theorem store_setFlags (l : Loc) (v : Word) (n : Int) (s : State) :
    store l v (setFlags n s) = setFlags n (store l v s) := by
  cases l <;> rfl

@[simp] theorem setFlags_setFlags (n n' : Int) (s : State) : setFlags n' (setFlags n s) = setFlags n' s := rfl

/-- A second store to the same location is the only one that counts. -/
theorem store_store (l : Loc) (v w : Word) (s : State) (h : s.mem.wf = true) :
    store l w (store l v s) = store l w s := by
  cases l with
  | reg r => simp only [store_reg, State.setReg_setReg]
  | mem a =>
    simp only [store_mem, State.setMem_mem, Memory.writeWord_writeWord s.mem a v w h]
    rfl

/-- An operand that updates no register evaluates to the same location after its own modification. -/
theorem evalOperand_modifyOperand {o : Operand} (ho : ∀ r, o.modifies r = false) (f : Word → Int) (s : State) :
    evalOperand o (modifyOperand f o s) = ((evalOperand o s).1, modifyOperand f o s) := by
  obtain ⟨m, r⟩ := o
  cases m with
  | direct => rfl
  | indirect => rfl
  | postinc => exact absurd (ho r) (by simp [Operand.modifies])
  | predec => exact absurd (ho r) (by simp [Operand.modifies])

/-- Modifying such an operand twice is modifying it once with the second result of the first. -/
theorem modifyOperand_modifyOperand {o : Operand} (ho : ∀ r, o.modifies r = false) (f g : Word → Int) (s : State)
    (h : s.mem.wf = true) :
    modifyOperand g o (modifyOperand f o s) = modifyOperand (fun a => g (wrap16 (f a))) o s := by
  have hload := (modifyOperand_spec f o s h).1
  have hwf : (evalOperand o s).2.mem.wf = true := by rwa [evalOperand_mem]
  rw [modifyOperand, evalOperand_modifyOperand ho]
  simp only [hload]
  simp only [modifyOperand, store_setFlags, setFlags_setFlags, store_store _ _ _ _ hwf]

/-- Settles O23: NOT's word is the complement, and one more than it is NEG's unbounded result. -/
theorem negIsNotThenInc : Obligations.NegIsNotThenInc := by
  intro o s hwf ho
  refine ⟨_, _, rfl, rfl, ?_⟩
  rw [modifyOperand_modifyOperand ho _ _ s hwf]
  simp only [toNat_complement, wrap16_word, exec, execNeg]

/-! ## Moves (R100 to R104) -/

theorem exec_mov (dst src : Operand) (s : State) : exec (.mov dst src) s = .next (moveIf true dst src s) := rfl
theorem exec_cmoveq (dst src : Operand) (s : State) : exec (.cmoveq dst src) s = .next (moveIf s.z dst src s) := rfl
theorem exec_cmovlt (dst src : Operand) (s : State) : exec (.cmovlt dst src) s = .next (moveIf s.c dst src s) := rfl
theorem exec_cmovgt (dst src : Operand) (s : State) :
    exec (.cmovgt dst src) s = .next (moveIf (!s.z && !s.c) dst src s) := rfl

/-- R81: a move that is made, from the state before its source's evaluation. -/
theorem taken_result {i : Instr} {dst src : Operand} {s : State}
    (hexec : exec i s = .next (moveIf true dst src s)) (hwf : s.mem.wf = true) :
    let v := evalSource src s
    let e := evalOperand dst v.2
    ∃ t, exec i s = .next t ∧ load e.1 t = v.1 ∧ t.z = (v.1 == 0#16) ∧ t.c = false ∧
      ChangesOnlyAt e.1 [src, dst] s e.2 t := by
  obtain ⟨hload, hz, hc, hframe⟩ :=
    moveInto_spec dst (evalSource src s).1 (evalSource src s).2 (by rwa [evalSource_mem])
  exact ⟨_, hexec, hload, hz, hc, hframe.from_start⟩

/-- R104: a move that is not made only evaluates its source. -/
theorem untaken_result {i : Instr} {dst src : Operand} {s : State}
    (hexec : exec i s = .next (moveIf false dst src s)) :
    ∃ t, exec i s = .next t ∧ t.z = s.z ∧ t.c = s.c ∧ StoresNothing [src] s (evalSource src s).2 t :=
  ⟨_, hexec, evalSource_z src s, evalSource_c src s, fun _ => rfl,
    fun _ hr => evalOperand_getReg src s (hr src List.mem_cons_self),
    fun _ => congrArg (Memory.read · _) (evalSource_mem src s)⟩

/-- Settles O24: MOV is a move that is always made. -/
theorem movResult : Obligations.MovResult := fun dst src s hwf => taken_result (exec_mov dst src s) hwf

/-- Settles O25: `Z` is the condition. -/
theorem cmoveqResult : Obligations.CmoveqResult := fun dst src s hwf =>
  ⟨fun hz => taken_result (by rw [exec_cmoveq, hz]) hwf,
    fun hz => untaken_result (dst := dst) (by rw [exec_cmoveq, hz])⟩

/-- Settles O26: `C` is the condition. -/
theorem cmovltResult : Obligations.CmovltResult := fun dst src s hwf =>
  ⟨fun hc => taken_result (by rw [exec_cmovlt, hc]) hwf,
    fun hc => untaken_result (dst := dst) (by rw [exec_cmovlt, hc])⟩

/-- Settles O27: both flags clear is the condition. -/
theorem cmovgtResult : Obligations.CmovgtResult := by
  refine fun dst src s hwf => ⟨fun ⟨hz, hc⟩ => taken_result ?_ hwf, fun h => untaken_result (dst := dst) ?_⟩
  · rw [exec_cmovgt, hz, hc]
    rfl
  · have hcond : (!s.z && !s.c) = false := by
      rcases h with hz | hc
      · rw [hz, Bool.not_true, Bool.false_and]
      · rw [hc, Bool.not_true, Bool.and_false]
    rw [exec_cmovgt, hcond]

/-! ## CALL (R105) -/

theorem exec_call (dst src : Operand) (s : State) : exec (.call dst src) s = .next (callInto dst src s) := rfl

/-- Settles O28: what `callInto_spec` says, and for a register that no mode updates, the evaluations' own frames. -/
theorem callResult : Obligations.CallResult := by
  intro dst src s hwf
  obtain ⟨hload, hpc, hz, hc, hreg, hmem⟩ := callInto_spec dst src s hwf
  refine ⟨_, exec_call dst src s, hload, hpc, hz, hc, hreg, fun r h7 hr hsrc hdst => ?_, hmem⟩
  calc (callInto dst src s).getReg r = (evalOperand dst (evalSource src s).2).2.getReg r := hreg r h7 hr
    _ = (evalSource src s).2.getReg r := evalOperand_getReg dst _ hdst
    _ = s.getReg r := evalOperand_getReg src s hsrc

/-- Settles O29: with destination R7 direct the stored instruction pointer is overwritten at once. -/
theorem callToInstructionPointerIsMov : Obligations.CallToInstructionPointerIsMov := by
  intro src s
  refine ⟨_, exec_call _ src s, ?_⟩
  simp only [exec_mov, callInto, moveIf_true, moveInto, evalOperand_direct, store_reg, State.setPc_eq_setReg,
    State.setReg_setReg]

/-- `MOV R7, @-R6` takes the word below R6 as the next address, and moves R6 down to it. -/
theorem exec_return (u : State) :
    ∃ w, exec (.mov ⟨.direct, .r7⟩ ⟨.predec, .r6⟩) u = .next w ∧ w.pc = u.mem.readWord (u.getReg .r6 - 2#16) ∧
      w.getReg .r6 = u.getReg .r6 - 2#16 ∧ ∀ r, r ≠ .r7 → r ≠ .r6 → w.getReg r = u.getReg r := by
  refine ⟨_, exec_mov _ _ u, State.getReg_setReg_self _ .r7 _, ?_, fun r h7 h6 => ?_⟩
  · exact (State.getReg_setReg_other _ _ (by decide)).trans (State.getReg_setReg_self u .r6 _)
  · exact (State.getReg_setReg_other _ _ h7).trans (State.getReg_setReg_other u _ h6)

/-- Settles O30: the call stores the address after it at the old R6, which is where the return reads. -/
theorem returnUndoesCall : Obligations.ReturnUndoesCall := by
  intro src s u hwf
  obtain ⟨t, hexec, hload, -, -, -, hreg, -, -⟩ := callResult ⟨.postinc, .r6⟩ src s hwf
  have hpushed : t.mem.readWord ((evalSource src s).2.getReg .r6) = (evalSource src s).2.pc :=
    (hload nofun).trans (State.getReg_setReg_other _ _ (by decide))
  have hraised : t.getReg .r6 = (evalSource src s).2.getReg .r6 + 2#16 :=
    (hreg .r6 (by decide) nofun).trans (State.getReg_setReg_self _ .r6 _)
  refine ⟨t, hexec, hraised, fun h6 hword => ?_⟩
  obtain ⟨w, hw, hpc, hw6, hother⟩ := exec_return u
  rw [h6, hraised, BitVec.add_sub_cancel] at hpc hw6
  exact ⟨w, hw, hpc.trans (hword.trans hpushed), hw6, hother⟩

/-! ## CMP, ADD, SUB, AND, OR, XOR (R110 to R117) -/

/-- R81: the whole of such an instruction's result follows from what its function narrows to. -/
theorem combine_result {i : Instr} {g : Word → Word → Int} {dst src : Operand} {s : State} {w : Word} {z c : Bool}
    (hexec : exec i s = .next (combineOperands g dst src s)) (hwf : s.mem.wf = true)
    (hn : Narrows (g (load (evalOperand dst (evalSource src s).2).1 (evalOperand dst (evalSource src s).2).2)
      (evalSource src s).1) w z c) :
    let e := evalOperand dst (evalSource src s).2
    ∃ t, exec i s = .next t ∧ load e.1 t = w ∧ t.z = z ∧ t.c = c ∧ ChangesOnlyAt e.1 [src, dst] s e.2 t := by
  obtain ⟨hv, hz, hc⟩ := hn
  obtain ⟨hload, hZ, hC, hframe⟩ := combineOperands_spec g dst src s hwf
  exact ⟨_, hexec, hload.trans hv, hZ.trans hz, hC.trans hc, hframe⟩

/-- Settles O31: CMP's unbounded result is the difference, which nothing stores. -/
theorem cmpResult : Obligations.CmpResult := by
  intro dst src s
  obtain ⟨hz, hc, hframe⟩ := compareOperands_spec (fun d v => (d.toNat : Int) - v.toNat) dst src s
  obtain ⟨-, hZ, hC⟩ := narrows_sub
    (load (evalOperand dst (evalSource src s).2).1 (evalOperand dst (evalSource src s).2).2) (evalSource src s).1
  exact ⟨_, rfl, hz.trans hZ, hc.trans hC, hframe⟩

/-- Settles O32: a carry out is a sum above `0xFFFF`. -/
theorem addResult : Obligations.AddResult := fun _ _ _ hwf => combine_result rfl hwf (narrows_add _ _)

/-- Settles O33: a borrow is a difference below 0. -/
theorem subResult : Obligations.SubResult := fun _ _ _ hwf => combine_result rfl hwf (narrows_sub _ _)

/-- Settles O34: an and is a word already, so nothing carries. -/
theorem andResult : Obligations.AndResult := fun _ _ _ hwf => combine_result rfl hwf (narrows_word _)

/-- Settles O35: an or is zero exactly when both its words are. -/
theorem orResult : Obligations.OrResult := fun _ _ _ hwf =>
  combine_result rfl hwf (or_eq_zero_iff _ _ ▸ narrows_word _)

/-- Settles O36: an exclusive or is zero exactly when its words are equal. -/
theorem xorResult : Obligations.XorResult := fun _ _ _ hwf =>
  combine_result rfl hwf (xor_eq_zero_iff _ _ ▸ narrows_word _)

/-- Settles O37: SUB's difference narrows to the words' difference, and a store and the flags do not meet. -/
theorem subIsCmpWithStore : Obligations.SubIsCmpWithStore := by
  intro dst src s
  refine ⟨_, rfl, ?_⟩
  simp only [exec, execSub, combineOperands, compareOperands, wrap16_sub, store_setFlags]

end Sys2Proof.Machine

namespace Sys2Proof.Machine

/-! ## Both operands on one register (R80) -/

theorem exec_add (dst src : Operand) (s : State) :
    exec (.add dst src) s = .next (combineOperands (fun d v => (d.toNat : Int) + v.toNat) dst src s) := rfl

/-- The word of a memory location does not reach down to the two bytes below it. -/
theorem covers_below (a : Word) :
    (Loc.mem (a + 2#16)).covers a = false ∧ (Loc.mem (a + 2#16)).covers (a + 1#16) = false := by
  simp only [Loc.covers, Bool.or_eq_false_iff, beq_eq_false_iff_ne]
  bv_omega

/-- Settles O38: in each form the source's value and the register's increment are there before the destination is
evaluated. -/
theorem sourceIsEvaluatedFirst : Obligations.SourceIsEvaluatedFirst := by
  intro r s hwf
  refine ⟨?movToMemory, ?movToRegister, ?addToRegister, ?addToMemory⟩
  case movToMemory =>
    obtain ⟨t, hexec, hload, -, -, hreg, -⟩ := movResult ⟨.postinc, r⟩ ⟨.direct, r⟩ s hwf
    exact ⟨t, hexec, hload, (hreg r nofun).trans (State.getReg_setReg_self s r _)⟩
  case movToRegister =>
    exact ⟨_, exec_mov _ _ s, State.getReg_setReg_self _ r _, rfl⟩
  case addToRegister =>
    have hload := (combineOperands_spec (fun d v => (d.toNat : Int) + v.toNat) ⟨.direct, r⟩ ⟨.postinc, r⟩ s hwf).1
    rw [wrap16_add] at hload
    refine ⟨_, exec_add _ _ s, hload.trans ?_, rfl⟩
    exact congrArg (· + s.mem.readWord (s.getReg r)) (State.getReg_setReg_self s r _)
  case addToMemory =>
    have hraised : (evalSource ⟨.postinc, r⟩ s).2.getReg r = s.getReg r + 2#16 := State.getReg_setReg_self s r _
    obtain ⟨t, hexec, hload, -, -, hreg, -, hmem⟩ := addResult ⟨.postinc, r⟩ ⟨.postinc, r⟩ s hwf
    rw [evalOperand_postinc, hraised] at hload hreg hmem
    obtain ⟨hlow, hhigh⟩ := covers_below (s.getReg r)
    refine ⟨t, hexec, ?_, hload, Memory.readWord_congr (hmem _ hlow) (hmem _ hhigh)⟩
    rw [hreg r nofun, State.getReg_setReg_self, BitVec.add_assoc]
    rfl

/-! ## CMP and the conditional moves (R101 to R103, R110) -/

/-- A conditional move is the move or its source's evaluation, whatever says which. -/
theorem moveIf_eq_ite {b : Bool} {p : Prop} [Decidable p] (h : b = true ↔ p) (dst src : Operand) (s : State) :
    moveIf b dst src s = if p then moveIf true dst src s else (evalSource src s).2 := by
  by_cases hp : p
  · rw [h.2 hp, if_pos hp]
  · rw [Bool.eq_false_iff.2 (mt h.1 hp), if_neg hp, moveIf_false]

/-- Unsigned words are equal, less or greater, and the flags of the difference say which. -/
theorem greater_iff (d v : Word) : (!(d == v) && !decide (d < v)) = true ↔ v < d := by
  simp only [Bool.and_eq_true, Bool.not_eq_true', beq_eq_false_iff_ne, decide_eq_false_iff_not]
  bv_omega

/-- Settles O39: the flags CMP leaves are `d = v` and `d < v`, and each condition is read from them. -/
theorem comparisonGovernsConditionalMoves : Obligations.ComparisonGovernsConditionalMoves := by
  intro dst src s
  obtain ⟨t, hexec, hz, hc, -⟩ := cmpResult dst src s
  refine ⟨t, hexec, fun dst' src' => ⟨_, exec_mov dst' src' t, ?_, ?_, ?_⟩⟩
  · rw [exec_cmoveq, hz, moveIf_eq_ite beq_iff_eq]
  · rw [exec_cmovlt, hc, moveIf_eq_ite decide_eq_true_iff]
  · rw [exec_cmovgt, hz, hc, moveIf_eq_ite (greater_iff _ _)]

/-! ## The five shapes of execution (R79, R81, R104) -/

/-- The shapes that the seventeen instructions share, each with what tells its instructions apart. -/
inductive Shape where
  /-- R79: format S. -/
  | modify (f : Word → Int) (o : Operand)
  /-- R81, R104: MOV and CMOVxx, with the condition over `Z` and `C`. -/
  | move (cond : Bool → Bool → Bool) (dst src : Operand)
  /-- R105: CALL. -/
  | call (dst src : Operand)
  /-- R81: CMP. -/
  | compare (g : Word → Word → Int) (dst src : Operand)
  /-- R81: ADD, SUB, AND, OR and XOR. -/
  | combine (g : Word → Word → Int) (dst src : Operand)

/-- An instruction's shape. -/
def shapeOf : Instr → Shape
  | .inc o => .modify (fun a => (a.toNat : Int) + 1) o
  | .dec o => .modify (fun a => (a.toNat : Int) - 1) o
  | .neg o => .modify (fun a => (0xFFFF - (a.toNat : Int)) + 1) o
  | .not o => .modify (fun a => 0xFFFF - (a.toNat : Int)) o
  | .lsh o => .modify (fun a => 2 * (a.toNat : Int)) o
  | .rsh o => .modify (fun a => ((a.toNat / 2 : Nat) : Int)) o
  | .mov dst src => .move (fun _ _ => true) dst src
  | .cmoveq dst src => .move (fun z _ => z) dst src
  | .cmovlt dst src => .move (fun _ c => c) dst src
  | .cmovgt dst src => .move (fun z c => !z && !c) dst src
  | .call dst src => .call dst src
  | .cmp dst src => .compare (fun d v => (d.toNat : Int) - v.toNat) dst src
  | .add dst src => .combine (fun d v => (d.toNat : Int) + v.toNat) dst src
  | .sub dst src => .combine (fun d v => (d.toNat : Int) - v.toNat) dst src
  | .and dst src => .combine (fun d v => ((d &&& v).toNat : Int)) dst src
  | .or dst src => .combine (fun d v => ((d ||| v).toNat : Int)) dst src
  | .xor dst src => .combine (fun d v => ((d ^^^ v).toNat : Int)) dst src

/-- The state a shape ends in. -/
def Shape.run : Shape → State → State
  | .modify f o, s => modifyOperand f o s
  | .move cond dst src, s => moveIf (cond s.z s.c) dst src s
  | .call dst src, s => callInto dst src s
  | .compare g dst src, s => compareOperands g dst src s
  | .combine g dst src, s => combineOperands g dst src s

/-- A shape's operands, in the order in which they are evaluated. -/
def Shape.operands : Shape → List Operand
  | .modify _ o => [o]
  | .move _ dst src => [src, dst]
  | .call dst src => [src, dst]
  | .compare _ dst src => [src, dst]
  | .combine _ dst src => [src, dst]

/-- A shape's operand accesses, in order. -/
def Shape.accesses : Shape → State → List Access
  | .modify _ o, s => modifyAccess o s
  | .move cond dst src, s => readAccess src s ++ if cond s.z s.c then writeAccess dst (evalSource src s).2 else []
  | .call dst src, s => readAccess src s ++ writeAccess dst (evalSource src s).2
  | .compare _ dst src, s => readAccess src s ++ readAccess dst (evalSource src s).2
  | .combine _ dst src, s => readAccess src s ++ modifyAccess dst (evalSource src s).2

/-- A move that is made whatever the flags; any other shape reads no flag at all. -/
def Shape.Unconditional : Shape → Prop
  | .modify _ _ => True
  | .move cond _ _ => ∀ z c, cond z c = true
  | .call _ _ => True
  | .compare _ _ _ => True
  | .combine _ _ _ => True

/-- R120, R122: every instruction completes, in the state its shape ends in. -/
theorem exec_eq_run (i : Instr) (s : State) : exec i s = .next ((shapeOf i).run s) := by
  cases i <;> rfl

theorem operands_shapeOf (i : Instr) : (shapeOf i).operands = i.operands := by
  cases i <;> rfl

theorem accesses_shapeOf (i : Instr) (s : State) : (shapeOf i).accesses s = instrAccesses i s := by
  cases i <;> rfl

theorem shapeOf_unconditional {i : Instr} (h : i.isConditional = false) : (shapeOf i).Unconditional := by
  cases i with
  | cmoveq | cmovlt | cmovgt => cases h
  | mov => exact fun _ _ => rfl
  | _ => trivial

theorem exec_next_iff {i : Instr} {s t : State} : exec i s = .next t ↔ t = (shapeOf i).run s := by
  rw [exec_eq_run, Host.Outcome.next.injEq, eq_comm]

/-! ## Flags that nothing reads (R19) -/

/-- The state with other flags. -/
def State.withFlags (s : State) (z c : Bool) : State := { s with z := z, c := c }

theorem evalOperand_withFlags (o : Operand) (s : State) (z c : Bool) :
    evalOperand o (s.withFlags z c) = ((evalOperand o s).1, (evalOperand o s).2.withFlags z c) := by
  obtain ⟨m, r⟩ := o
  cases m <;> rfl

theorem load_withFlags (l : Loc) (s : State) (z c : Bool) : load l (s.withFlags z c) = load l s := by
  cases l <;> rfl

theorem evalSource_withFlags (src : Operand) (s : State) (z c : Bool) :
    evalSource src (s.withFlags z c) = ((evalSource src s).1, (evalSource src s).2.withFlags z c) := by
  simp only [evalSource, evalOperand_withFlags, load_withFlags]

theorem store_withFlags (l : Loc) (v : Word) (s : State) (z c : Bool) :
    store l v (s.withFlags z c) = (store l v s).withFlags z c := by
  cases l <;> rfl

theorem setPc_withFlags (s : State) (t : Word) (z c : Bool) :
    (s.withFlags z c).setPc t = (s.setPc t).withFlags z c := rfl

theorem pc_withFlags (s : State) (z c : Bool) : (s.withFlags z c).pc = s.pc := rfl

/-- The flags before an instruction sets both are lost. -/
theorem setFlags_withFlags (n : Int) (s : State) (z c : Bool) : setFlags n (s.withFlags z c) = setFlags n s := rfl

/-- A shape whose condition is no condition ends in the same state from whatever flags. -/
theorem Shape.run_withFlags {sh : Shape} (h : sh.Unconditional) (s : State) (z c : Bool) :
    sh.run (s.withFlags z c) = sh.run s := by
  cases sh with
  | modify f o =>
    simp only [Shape.run, modifyOperand, evalOperand_withFlags, load_withFlags, store_withFlags, setFlags_withFlags]
  | move cond dst src =>
    simp only [Shape.run, h _ _, moveIf_true, moveInto, evalSource_withFlags, evalOperand_withFlags, store_withFlags,
      setFlags_withFlags]
  | call dst src =>
    simp only [Shape.run, callInto, evalSource_withFlags, evalOperand_withFlags, pc_withFlags, store_withFlags,
      setPc_withFlags, setFlags_withFlags]
  | compare g dst src =>
    simp only [Shape.run, compareOperands, evalSource_withFlags, evalOperand_withFlags, load_withFlags,
      setFlags_withFlags]
  | combine g dst src =>
    simp only [Shape.run, combineOperands, evalSource_withFlags, evalOperand_withFlags, load_withFlags,
      store_withFlags, setFlags_withFlags]

/-- Settles O40: an instruction that is not conditional has an unconditional shape. -/
theorem onlyConditionalMovesReadFlags : Obligations.OnlyConditionalMovesReadFlags := fun i s z c hcond =>
  ⟨_, exec_eq_run i s, exec_next_iff.2 (Shape.run_withFlags (shapeOf_unconditional hcond) s z c).symm⟩

/-! ## The canonical form of memory, kept -/

theorem Shape.run_wf (sh : Shape) (s : State) (h : s.mem.wf = true) : (sh.run s).mem.wf = true := by
  cases sh with
  | modify f o => exact modifyOperand_wf f o s h
  | move cond dst src => exact moveIf_wf _ dst src s h
  | call dst src => exact callInto_wf dst src s h
  | compare g dst src => exact compareOperands_wf g dst src s h
  | combine g dst src => exact combineOperands_wf g dst src s h

/-- A fetch leaves memory alone. -/
theorem fetchInstr_mem {s t : State} {i : Instr} (h : fetchInstr s = .instr i t) : t.mem = s.mem := by
  obtain ⟨p, rfl⟩ := fetchInstr_instr h
  exact State.setPc_mem s p

/-- A completed step is a fetched instruction's shape, run in the state the fetch left. -/
theorem step_next {s t : State} (h : step s = .next t) :
    ∃ i u, fetchInstr s = .instr i u ∧ t = (shapeOf i).run u := by
  rcases step_cases s with ⟨i, u, hf, hstep⟩ | ⟨-, -, hstep⟩
  · exact ⟨i, u, hf, exec_next_iff.1 (hstep.symm.trans h)⟩
  · rw [hstep] at h
    cases h

/-- Settles O44: the fetch leaves memory alone and every shape of execution keeps its form. -/
theorem stepKeepsMemoryCanonical : Obligations.StepKeepsMemoryCanonical := by
  intro s t hwf h
  obtain ⟨i, u, hf, rfl⟩ := step_next h
  exact Shape.run_wf _ u (by rwa [fetchInstr_mem hf])

/-! ## The step and the decoder (R70, R121) -/

theorem decodeS_eq_some {b0 : Byte} {mk : Operand → Instr} (h : singleOp (b0.extractLsb' 5 3) = some mk) :
    decodeS b0 = some (mk (operandS b0)) := by
  rw [decodeS, h]

theorem decodeD_eq_some {b0 : Byte} {mk : Operand → Operand → Instr} (h : doubleOp (b0.extractLsb' 2 4) = some mk) :
    decodeD b0 = some fun b1 => mk (operandDst b0 b1) (operandSrc b1) := by
  rw [decodeD, h]

/-- R70, R71: fetching takes from the code what the decoder reads there, one byte of format S or two of format D,
and accesses no other. -/
theorem fetch_of_decode {s : State} {i : Instr} {rest : List Byte} (h : decode (codeAt s) = .ok (i, rest)) :
    fetchInstr s = .instr i (s.setPc (s.pc + BitVec.ofNat 16 (encode i).length)) ∧
      ((encode i).length = 1 ∧ fetchAccesses s = [⟨.fetch, s.pc⟩] ∨
        (encode i).length = 2 ∧ fetchAccesses s = [⟨.fetch, s.pc⟩, ⟨.fetch, s.pc + 1#16⟩]) := by
  have hlen := congrArg List.length (encodeOfDecode i _ rest h)
  rcases decode_cases h with ⟨b0, mk, hcode, hS, hop, rfl⟩ | ⟨b0, b1, mk, hcode, hD, hop, rfl⟩
  · have hone : (encode (mk (operandS b0))).length = 1 := by
      rw [hcode, List.length_append, List.length_cons] at hlen
      omega
    obtain ⟨rfl, -⟩ := List.cons.inj hcode
    have hf := fetchInstr_formatS (s := s) hS (decodeS_eq_some hop)
    refine ⟨by rw [hone]; exact hf, .inl ⟨hone, ?_⟩⟩
    simp only [fetchAccesses, hf, hS, Bool.false_eq_true, if_false]
  · have htwo : (encode (mk (operandDst b0 b1) (operandSrc b1))).length = 2 := by
      rw [hcode, List.length_append, List.length_cons, List.length_cons] at hlen
      omega
    obtain ⟨rfl, hcode'⟩ := List.cons.inj hcode
    obtain ⟨rfl, -⟩ := List.cons.inj hcode'
    have hf := fetchInstr_formatD (s := s) hD (decodeD_eq_some hop)
    refine ⟨?_, .inr ⟨htwo, ?_⟩⟩
    · rw [htwo]
      simpa [BitVec.add_assoc] using hf
    · simp only [fetchAccesses, hf, hD, if_true]

/-- Settles O42: the fetch hands over the decoder's instruction. -/
theorem stepRunsDecodedInstruction : Obligations.StepRunsDecodedInstruction := fun _ _ _ h =>
  step_of_fetchInstr (fetch_of_decode h).1

/-- What the encoder wrote at `x[7]` is what the step runs. -/
theorem step_of_codeAt {s : State} {i : Instr} {rest : List Byte} (h : codeAt s = encode i ++ rest) :
    step s = exec i (s.setPc (s.pc + BitVec.ofNat 16 (encode i).length)) :=
  stepRunsDecodedInstruction s i rest (by rw [h, decodeOfEncode])

/-- R60: no first byte below `0xEC` is rejected. -/
theorem unassigned_iff (b0 : Byte) : isFormatD b0 = true ∧ decodeD b0 = none ↔ 0xEC#8 ≤ b0 := by
  constructor
  · rintro ⟨hD, hnone⟩
    have h := decodeD_isSome b0 hD
    rw [hnone, Option.isSome_none] at h
    exact BitVec.not_lt.1 (of_decide_eq_false h.symm)
  · intro hb
    have hD : isFormatD b0 = true := by
      rw [isFormatD_iff]
      bv_omega
    refine ⟨hD, Option.isNone_iff_eq_none.1 ?_⟩
    rw [← Option.not_isSome, decodeD_isSome b0 hD, decide_eq_false (BitVec.not_lt.2 hb)]
    rfl

/-- R60, R71: an unassigned first byte is fetched, and nothing after it. -/
theorem fetchInstr_unassigned {s : State} (h : 0xEC#8 ≤ s.mem.read s.pc) :
    fetchInstr s = .unassigned (s.mem.read s.pc) (s.setPc (s.pc + 1#16)) := by
  obtain ⟨hD, hnone⟩ := (unassigned_iff _).2 h
  simp only [fetchInstr, fetch8_fst, hD, hnone, if_true, fetch8_snd]

/-- Settles O43: of the two things a step can do, an unassigned first byte decides which. -/
theorem stepFaultsExactlyOnUnassigned : Obligations.StepFaultsExactlyOnUnassigned := by
  intro s
  have hcases := step_cases s
  refine ⟨fun hlt => ?_, fun hge => ?_⟩
  · rcases hcases with ⟨i, t, -, hstep⟩ | ⟨hD, hnone, -⟩
    · exact ⟨_, hstep.trans (exec_eq_run i t)⟩
    · exact absurd ((unassigned_iff _).1 ⟨hD, hnone⟩) (BitVec.not_le.2 hlt)
  · simp only [step, fetchInstr_unassigned hge, raiseIllegalInstruction, State.pc_setPc, BitVec.add_sub_cancel]

end Sys2Proof.Machine

namespace Sys2Proof.Machine

/-! ## Registers that no operand names -/

theorem evalOperand_getReg_of_ne {o : Operand} {r : Reg} (h : o.reg ≠ r) (s : State) :
    (evalOperand o s).2.getReg r = s.getReg r :=
  evalOperand_getReg o s (Bool.eq_false_iff.2 fun hm => h ((modifies_iff o r).1 hm).1.symm)

/-- A store to where an operand lies reaches no register but the operand's own. -/
theorem store_evalOperand_getReg {o : Operand} {r : Reg} (h : o.reg ≠ r) (v : Word) (s : State) :
    (store (evalOperand o s).1 v (evalOperand o s).2).getReg r = s.getReg r := by
  have hloc : (evalOperand o s).1 ≠ .reg r := fun hr => h (congrArg Operand.reg (evalOperand_reg hr))
  exact (store_getReg v _ hloc).trans (evalOperand_getReg_of_ne h s)

theorem State.getReg_setPc_other (s : State) {r : Reg} (t : Word) (h : r ≠ .r7) :
    (s.setPc t).getReg r = s.getReg r :=
  State.getReg_setReg_other s t h

/-- A shape writes a register only where an operand names it, and R7. -/
theorem Shape.run_getReg (sh : Shape) (s : State) {r : Reg} (h7 : r ≠ .r7) (h : ∀ o ∈ sh.operands, o.reg ≠ r) :
    (sh.run s).getReg r = s.getReg r := by
  cases sh with
  | modify f o => exact store_evalOperand_getReg (h o (by simp [Shape.operands])) _ s
  | move cond dst src =>
    have hsrc := evalOperand_getReg_of_ne (h src (by simp [Shape.operands])) s
    cases hc : cond s.z s.c with
    | false => simpa only [Shape.run, hc, moveIf_false, evalSource_snd] using hsrc
    | true =>
      simp only [Shape.run, hc, moveIf_true]
      exact (store_evalOperand_getReg (h dst (by simp [Shape.operands])) _ _).trans hsrc
  | call dst src =>
    have hsrc := evalOperand_getReg_of_ne (h src (by simp [Shape.operands])) s
    exact (State.getReg_setPc_other _ _ h7).trans
      ((store_evalOperand_getReg (h dst (by simp [Shape.operands])) _ _).trans hsrc)
  | compare g dst src =>
    have hsrc := evalOperand_getReg_of_ne (h src (by simp [Shape.operands])) s
    exact (evalOperand_getReg_of_ne (h dst (by simp [Shape.operands])) _).trans hsrc
  | combine g dst src =>
    have hsrc := evalOperand_getReg_of_ne (h src (by simp [Shape.operands])) s
    exact (store_evalOperand_getReg (h dst (by simp [Shape.operands])) _ _).trans hsrc

/-- A completed step of a decoded instruction is its shape, run past the instruction's own bytes. -/
theorem step_next_of_decode {s t : State} {i : Instr} {rest : List Byte} (h : decode (codeAt s) = .ok (i, rest))
    (hstep : step s = .next t) : t = (shapeOf i).run (s.setPc (s.pc + BitVec.ofNat 16 (encode i).length)) :=
  exec_next_iff.1 ((stepRunsDecodedInstruction s i rest h).symm.trans hstep)

/-- Settles O50: the fetch writes R7 alone, and the shape what its operands name. -/
theorem stepChangesOnlyNamedRegisters : Obligations.StepChangesOnlyNamedRegisters := by
  intro s t i rest r hdec hstep h7 hnamed
  rw [step_next_of_decode hdec hstep,
    Shape.run_getReg _ _ h7 fun o ho => hnamed o (by rwa [operands_shapeOf] at ho), State.getReg_setPc_other s _ h7]

/-! ## The instruction pointer (R57) -/

/-- The bytes of immediate words that operands pass over. -/
def immediateBytes (os : List Operand) : Word := BitVec.ofNat 16 (2 * os.countP Operand.isImmediate)

theorem immediateBytes_pair (src dst : Operand) :
    immediateBytes [src, dst] = immediateBytes [src] + immediateBytes [dst] := by
  have hsplit : [src, dst].countP Operand.isImmediate =
      [src].countP Operand.isImmediate + [dst].countP Operand.isImmediate :=
    List.countP_append (l₁ := [src]) (l₂ := [dst])
  rw [immediateBytes, hsplit, Nat.mul_add, BitVec.ofNat_add]
  rfl

theorem immediateBytes_of_not {o : Operand} (h : o.isImmediate = false) : immediateBytes [o] = 0#16 := by
  simp [immediateBytes, h]

/-- R75, R77: an operand that uses R7 at most as an immediate moves it past its word, if it has one. -/
theorem evalOperand_pc {o : Operand} (h : o.reg = .r7 → o.mode = .postinc) (s : State) :
    (evalOperand o s).2.pc = s.pc + immediateBytes [o] := by
  by_cases h7 : o.reg = .r7
  · obtain ⟨m, r⟩ := o
    obtain rfl : r = .r7 := h7
    obtain rfl : m = .postinc := h rfl
    exact State.getReg_setReg_self s .r7 _
  · have hne : o ≠ ⟨.postinc, .r7⟩ := fun e => h7 (congrArg Operand.reg e)
    rw [immediateBytes_of_not (Bool.eq_false_iff.2 (mt o.isImmediate_iff.1 hne)), BitVec.add_zero]
    exact evalOperand_getReg_of_ne h7 s

/-- A store to where such an operand lies is not to R7. -/
theorem store_evalOperand_pc {o : Operand} (h : o.reg = .r7 → o.mode = .postinc) (v : Word) (s : State) :
    (store (evalOperand o s).1 v (evalOperand o s).2).pc = s.pc + immediateBytes [o] := by
  have hloc : (evalOperand o s).1 ≠ .reg .r7 := fun hr => by
    obtain rfl := evalOperand_reg hr
    exact absurd (h rfl) (by decide)
  exact (store_getReg v _ hloc).trans (evalOperand_pc h s)

/-- Where the operands use R7 at most as immediates, a shape other than CALL's passes over the immediate words; an
untaken move does so if its destination has none. -/
theorem Shape.run_pc {sh : Shape} (s : State) (hcall : ∀ dst src, sh ≠ .call dst src)
    (h : ∀ o ∈ sh.operands, o.reg = .r7 → o.mode = .postinc)
    (hmove : ∀ cond dst src, sh = .move cond dst src → cond s.z s.c = false → dst.isImmediate = false) :
    (sh.run s).pc = s.pc + immediateBytes sh.operands := by
  cases sh with
  | modify f o => exact store_evalOperand_pc (h o (by simp [Shape.operands])) _ s
  | move cond dst src =>
    have hsrc := evalOperand_pc (h src (by simp [Shape.operands])) s
    rw [Shape.operands, immediateBytes_pair, ← BitVec.add_assoc, ← hsrc]
    cases hc : cond s.z s.c with
    | false =>
      rw [immediateBytes_of_not (hmove cond dst src rfl hc), BitVec.add_zero]
      simp only [Shape.run, hc, moveIf_false, evalSource_snd]
    | true =>
      simp only [Shape.run, hc, moveIf_true]
      exact store_evalOperand_pc (h dst (by simp [Shape.operands])) _ _
  | call dst src => exact absurd rfl (hcall dst src)
  | compare g dst src =>
    have hsrc := evalOperand_pc (h src (by simp [Shape.operands])) s
    rw [Shape.operands, immediateBytes_pair, ← BitVec.add_assoc, ← hsrc]
    exact evalOperand_pc (h dst (by simp [Shape.operands])) _
  | combine g dst src =>
    have hsrc := evalOperand_pc (h src (by simp [Shape.operands])) s
    rw [Shape.operands, immediateBytes_pair, ← BitVec.add_assoc, ← hsrc]
    exact store_evalOperand_pc (h dst (by simp [Shape.operands])) _ _

theorem shapeOf_ne_call {i : Instr} (h : i.isCall = false) (dst src : Operand) : shapeOf i ≠ .call dst src := by
  cases i with
  | call => cases h
  | _ => exact nofun

/-- Settles O49: the fetch passes over the instruction's own bytes, its operands over their words. -/
theorem stepAdvancesByLength : Obligations.StepAdvancesByLength := by
  intro s t i rest hdec hstep hcall hops hcond
  rw [step_next_of_decode hdec hstep, Shape.run_pc _ (shapeOf_ne_call hcall) ?operands ?untaken, State.pc_setPc,
    operands_shapeOf, Instr.length, BitVec.ofNat_add, BitVec.add_assoc]
  case operands => exact fun o ho => hops o (by rwa [operands_shapeOf] at ho)
  case untaken =>
    intro cond dst src hsh hfalse
    have hconditional : i.isConditional = true := by
      by_contra hnot
      have hall := shapeOf_unconditional (Bool.eq_false_iff.2 hnot)
      rw [hsh] at hall
      exact absurd (hall _ _) (Bool.eq_false_iff.1 hfalse)
    refine hcond hconditional dst ?_
    rw [← operands_shapeOf, hsh]
    exact Option.mem_some_self dst
  · rfl

/-! ## Instructions with an immediate (R77, R106) -/

/-- The immediate is the word at `x[7]`, and `x[7]` goes past it. -/
theorem evalSource_immediate (s : State) (p : Word) :
    evalSource ⟨.postinc, .r7⟩ (s.setPc p) = (s.mem.readWord p, s.setPc (p + 2#16)) := by
  have h : (s.setPc p).setReg .r7 (p + 2#16) = s.setPc (p + 2#16) := State.setPc_setPc s p (p + 2#16)
  rw [← h]
  rfl

/-- Settles O51: `0x17` is INC with its immediate as the operand, and the immediate lies in the code. -/
theorem incImmediateModifiesItsCode : Obligations.IncImmediateModifiesItsCode := by
  intro s hwf hb
  have hcode : codeAt s = encode (.inc ⟨.postinc, .r7⟩) ++ [s.mem.read (s.pc + 1#16)] := by
    rw [codeAt, hb]
    rfl
  obtain ⟨t, hexec, hload, -, -, hreg, hkept, hmem⟩ := incResult ⟨.postinc, .r7⟩ (s.setPc (s.pc + 1#16)) hwf
  refine ⟨t, (step_of_codeAt hcode).trans hexec, hload, ?_, fun r h7 => ?_, fun a h1 h2 => ?_⟩
  · calc t.pc = s.pc + 1#16 + 2#16 := (hreg .r7 nofun).trans (State.getReg_setReg_self _ .r7 _)
      _ = s.pc + 3#16 := by rw [BitVec.add_assoc]; rfl
  · refine (hkept r nofun fun o ho => ?_).trans (State.getReg_setPc_other s _ h7)
    rw [List.mem_singleton.1 ho, Bool.eq_false_iff]
    exact fun hm => h7 ((modifies_iff _ r).1 hm).1
  · refine hmem a ?_
    have h2' : a ≠ s.pc + 1#16 + 1#16 := by rwa [BitVec.add_assoc]
    simpa [Loc.covers, State.pc_eq_getReg] using ⟨h1, h2'⟩

/-- The state a branch to `target` ends in: only R7 and the flags may differ. -/
def Branches (s : State) (target : Word) (t : State) : Prop :=
  t.pc = target ∧ (∀ r, r ≠ .r7 → t.getReg r = s.getReg r) ∧ t.mem = s.mem

theorem branches_setPc (s : State) (target : Word) : Branches s target (s.setPc target) :=
  ⟨rfl, fun _ h7 => State.getReg_setPc_other s target h7, rfl⟩

theorem branches_setFlags {s t : State} {target : Word} (n : Int) (h : Branches s target t) :
    Branches s target (setFlags n t) := h

/-- R106: a move of an immediate to R7 is a branch to it, or past it where the move is not made. -/
theorem branches_moveIf (b : Bool) (s : State) (p : Word) :
    Branches s (if b then s.mem.readWord p else p + 2#16) (moveIf b ⟨.direct, .r7⟩ ⟨.postinc, .r7⟩ (s.setPc p)) := by
  cases b with
  | false =>
    rw [moveIf_false, evalSource_immediate]
    exact branches_setPc s _
  | true =>
    rw [moveIf_true, evalSource_immediate, moveInto, evalOperand_direct, store_reg, ← State.setPc_eq_setReg,
      State.setPc_setPc]
    exact branches_setFlags _ (branches_setPc s _)

/-- R106: an addition of an immediate to R7 is a branch relative to the address after it. -/
theorem branches_add (s : State) (p : Word) :
    Branches s (p + 2#16 + s.mem.readWord p)
      (combineOperands (fun d v => (d.toNat : Int) + v.toNat) ⟨.direct, .r7⟩ ⟨.postinc, .r7⟩ (s.setPc p)) := by
  simp only [combineOperands, evalSource_immediate, evalOperand_direct, store_reg, load_reg, wrap16_add,
    ← State.setPc_eq_setReg, ← State.pc_eq_getReg, State.pc_setPc, State.setPc_setPc]
  exact branches_setFlags _ (branches_setPc s _)

/-- A format D instruction of R7 with an immediate source is run past its two bytes. -/
theorem step_of_immediate {s : State} {i : Instr} {t : State}
    (hcode : codeAt s = encode i) (hlen : (encode i).length = 2) (hexec : exec i (s.setPc (s.pc + 2#16)) = .next t) :
    step s = .next t := by
  rw [step_of_codeAt (rest := []) (by rw [hcode, List.append_nil]), hlen]
  exact hexec

/-- Settles O53: each idiom is MOV, CMOVxx or ADD to R7 with an immediate, run past its two bytes. -/
theorem controlTransferIdioms : Obligations.ControlTransferIdioms := by
  intro s
  have hnext : s.pc + 4#16 = s.pc + 2#16 + 2#16 := by rw [BitVec.add_assoc]; rfl
  rw [hnext]
  refine ⟨fun h0 h1 => ?jump, fun h0 h1 => ?relative, fun h0 h1 => ?equal, fun h0 h1 => ?less, fun h0 h1 => ?greater⟩
  case jump =>
    exact ⟨_, step_of_immediate (i := .mov ⟨.direct, .r7⟩ ⟨.postinc, .r7⟩) (by rw [codeAt, h0, h1]; rfl) rfl rfl,
      branches_moveIf true s _⟩
  case relative =>
    exact ⟨_, step_of_immediate (i := .add ⟨.direct, .r7⟩ ⟨.postinc, .r7⟩) (by rw [codeAt, h0, h1]; rfl) rfl rfl,
      branches_add s _⟩
  case equal =>
    exact ⟨_, step_of_immediate (i := .cmoveq ⟨.direct, .r7⟩ ⟨.postinc, .r7⟩) (by rw [codeAt, h0, h1]; rfl) rfl rfl,
      branches_moveIf s.z s _⟩
  case less =>
    exact ⟨_, step_of_immediate (i := .cmovlt ⟨.direct, .r7⟩ ⟨.postinc, .r7⟩) (by rw [codeAt, h0, h1]; rfl) rfl rfl,
      branches_moveIf s.c s _⟩
  case greater =>
    exact ⟨_, step_of_immediate (i := .cmovgt ⟨.direct, .r7⟩ ⟨.postinc, .r7⟩) (by rw [codeAt, h0, h1]; rfl) rfl rfl,
      branches_moveIf (!s.z && !s.c) s _⟩

/-- Settles O54: `D2 D7` is CALL @R6+ with an immediate, which is read before anything is stored. -/
theorem canonicalCallStep : Obligations.CanonicalCallStep := by
  intro s hwf h0 h1
  obtain ⟨t, hexec, hload, hpc, -, -, hreg, -, hmem⟩ :=
    callResult ⟨.postinc, .r6⟩ ⟨.postinc, .r7⟩ (s.setPc (s.pc + 2#16)) hwf
  have hnext : s.pc + 2#16 + 2#16 = s.pc + 4#16 := by rw [BitVec.add_assoc]; rfl
  have h6 : (s.setPc (s.pc + 4#16)).getReg .r6 = s.getReg .r6 := State.getReg_setPc_other s _ (by decide)
  rw [evalSource_immediate, hnext, evalOperand_postinc, h6] at hload hreg hmem
  rw [evalSource_immediate] at hpc
  refine ⟨t, step_of_immediate (i := .call ⟨.postinc, .r6⟩ ⟨.postinc, .r7⟩) (by rw [codeAt, h0, h1]; rfl) rfl hexec,
    hpc, hload nofun, ?_, fun r hr6 hr7 => ?_, fun a ha0 ha1 => ?_⟩
  · exact (hreg .r6 (by decide) nofun).trans (State.getReg_setReg_self _ .r6 _)
  · exact (hreg r hr7 nofun).trans ((State.getReg_setReg_other _ _ hr6).trans (State.getReg_setPc_other s _ hr7))
  · exact hmem a (by simp [Loc.covers, ha0, ha1])

end Sys2Proof.Machine

namespace Sys2Proof.Machine

/-! ## The accesses of a step (R38, R42) -/

theorem stepAccesses_of_fetchInstr {s t : State} {i : Instr} (h : fetchInstr s = .instr i t) :
    stepAccesses s = fetchAccesses s ++ instrAccesses i t := by
  rw [stepAccesses, h]

/-- R60: an unassigned first byte is the step's one access. -/
theorem stepAccesses_unassigned {s : State} (h : 0xEC#8 ≤ s.mem.read s.pc) : stepAccesses s = [⟨.fetch, s.pc⟩] := by
  rw [stepAccesses, fetchAccesses, fetchInstr_unassigned h]

theorem stepAccesses_formatS {s : State} {i : Instr} {rest : List Byte} (h : decode (codeAt s) = .ok (i, rest))
    (hlen : (encode i).length = 1) :
    stepAccesses s = [⟨.fetch, s.pc⟩] ++ instrAccesses i (s.setPc (s.pc + 1#16)) := by
  obtain ⟨hf, ⟨-, hacc⟩ | ⟨htwo, -⟩⟩ := fetch_of_decode h
  · rw [stepAccesses_of_fetchInstr hf, hacc, hlen]
  · rw [hlen] at htwo
    exact absurd htwo (by decide)

theorem stepAccesses_formatD {s : State} {i : Instr} {rest : List Byte} (h : decode (codeAt s) = .ok (i, rest))
    (hlen : (encode i).length = 2) :
    stepAccesses s =
      [⟨.fetch, s.pc⟩, ⟨.fetch, s.pc + 1#16⟩] ++ instrAccesses i (s.setPc (s.pc + 2#16)) := by
  obtain ⟨hf, ⟨hone, -⟩ | ⟨-, hacc⟩⟩ := fetch_of_decode h
  · rw [hlen] at hone
    exact absurd hone (by decide)
  · rw [stepAccesses_of_fetchInstr hf, hacc, hlen]

/-- Settles O55: the fetches are those of the instruction's format, the accesses after them its row of the table of
R38. -/
theorem accessesComeInOrder : Obligations.AccessesComeInOrder := by
  refine ⟨fun _ _ => rfl, fun _ _ => rfl, fun _ => ⟨rfl, rfl, rfl⟩, fun s => stepAccesses_unassigned,
    fun s i rest hdec => ⟨fun o hi => ?single, fun dst src => ⟨fun hi => ?moveOrCall, ?cmoveq, ?cmovlt, ?cmovgt,
      ?compare, fun hi => ?combine⟩⟩⟩
  case single => fin_cases hi <;> exact stepAccesses_formatS hdec rfl
  case moveOrCall => fin_cases hi <;> exact stepAccesses_formatD hdec rfl
  case cmoveq => rintro rfl; exact stepAccesses_formatD hdec rfl
  case cmovlt => rintro rfl; exact stepAccesses_formatD hdec rfl
  case cmovgt => rintro rfl; exact stepAccesses_formatD hdec rfl
  case compare => rintro rfl; exact stepAccesses_formatD hdec rfl
  case combine =>
    refine Eq.trans ?_ (List.append_assoc _ _ _).symm
    fin_cases hi <;> exact stepAccesses_formatD hdec rfl

/-! ## The bytes a step writes (R38) -/

theorem kind_of_mem_access {l : Loc} {k : AccessKind} {x : Access} (h : x ∈ l.access k) : x.kind = k := by
  cases l with
  | reg r => cases h
  | mem a => rw [List.mem_singleton.1 h]

/-- A byte in no write access of a location is none of the location's bytes. -/
theorem covers_eq_false {l : Loc} {a : Word} (h : ∀ x ∈ l.access .write, a ∉ x.bytes) : l.covers a = false := by
  cases l with
  | reg r => rfl
  | mem b =>
    have hb : a ∉ [b, b + 1#16] := h ⟨.write, b⟩ (List.mem_singleton.2 rfl)
    simpa [Loc.covers] using hb

theorem store_evalOperand_read {o : Operand} {s : State} {a : Word} (h : ∀ x ∈ writeAccess o s, a ∉ x.bytes)
    (v : Word) : (store (evalOperand o s).1 v (evalOperand o s).2).mem.read a = s.mem.read a :=
  (store_read v _ (covers_eq_false h)).trans (by rw [evalOperand_mem])

/-- A shape writes no byte outside its write accesses. -/
theorem Shape.run_read (sh : Shape) (s : State) {a : Word}
    (h : ∀ x ∈ sh.accesses s, x.kind = .write → a ∉ x.bytes) : (sh.run s).mem.read a = s.mem.read a := by
  have written : ∀ {o u}, writeAccess o u ⊆ sh.accesses s → ∀ x ∈ writeAccess o u, a ∉ x.bytes :=
    fun hsub x hx => h x (hsub hx) (kind_of_mem_access hx)
  cases sh with
  | modify f o => exact store_evalOperand_read (written (List.subset_append_right _ _)) _
  | move cond dst src =>
    cases hc : cond s.z s.c with
    | false => simp only [Shape.run, hc, moveIf_false, evalSource_mem]
    | true =>
      have hsub : writeAccess dst (evalSource src s).2 ⊆ (Shape.move cond dst src).accesses s := by
        simp only [Shape.accesses, hc, if_true]
        exact List.subset_append_right _ _
      simp only [Shape.run, hc, moveIf_true]
      exact (store_evalOperand_read (written hsub) _).trans (by rw [evalSource_mem])
  | call dst src =>
    exact (store_evalOperand_read (written (List.subset_append_right _ _)) _).trans (by rw [evalSource_mem])
  | compare g dst src => simp only [Shape.run, compareOperands, setFlags_mem, evalOperand_mem, evalSource_mem]
  | combine g dst src =>
    have hsub : writeAccess dst (evalSource src s).2 ⊆ (Shape.combine g dst src).accesses s :=
      List.Subset.trans (List.subset_append_right _ _) (List.subset_append_right _ _)
    exact (store_evalOperand_read (written hsub) _).trans (by rw [evalSource_mem])

/-- Settles O56: the fetch leaves memory alone, and the shape writes only its own accesses. -/
theorem stepWritesOnlyItsAccesses : Obligations.StepWritesOnlyItsAccesses := by
  intro s t a hstep h
  obtain ⟨i, u, hf, rfl⟩ := step_next hstep
  rw [← fetchInstr_mem hf]
  refine Shape.run_read _ u fun x hx => h x ?_
  rw [stepAccesses_of_fetchInstr hf, ← accesses_shapeOf]
  exact List.mem_append_right _ hx

/-! ## Two memories that agree where a step looks (R42, R23) -/

/-- The memories agree on every byte that one of the accesses fetches or reads. -/
def AgreeOnReads (xs : List Access) (m m' : Memory) : Prop :=
  ∀ x ∈ xs, x.kind ≠ .write → ∀ a ∈ x.bytes, m.read a = m'.read a

/-- The memories agree on every byte that one of the accesses writes. -/
def AgreeOnWrites (xs : List Access) (m m' : Memory) : Prop :=
  ∀ x ∈ xs, x.kind = .write → ∀ a ∈ x.bytes, m.read a = m'.read a

theorem agreeOnReads_append {xs ys : List Access} {m m' : Memory} :
    AgreeOnReads (xs ++ ys) m m' ↔ AgreeOnReads xs m m' ∧ AgreeOnReads ys m m' :=
  List.forall_mem_append

theorem agreeOnWrites_append {xs ys : List Access} {m m' : Memory} :
    AgreeOnWrites (xs ++ ys) m m' ↔ AgreeOnWrites xs m m' ∧ AgreeOnWrites ys m m' :=
  List.forall_mem_append

theorem agreeOnWrites_readAccess (o : Operand) (s : State) (m m' : Memory) :
    AgreeOnWrites (readAccess o s) m m' := by
  intro x hx hw
  rw [kind_of_mem_access hx] at hw
  cases hw

theorem evalOperand_setMem (o : Operand) (s : State) (m : Memory) :
    evalOperand o (s.setMem m) = ((evalOperand o s).1, (evalOperand o s).2.setMem m) := by
  obtain ⟨mode, r⟩ := o
  cases mode <;> rfl

theorem load_setMem {l : Loc} {s : State} {m : Memory} (h : AgreeOnReads (l.access .read) s.mem m) :
    load l (s.setMem m) = load l s := by
  cases l with
  | reg r => rfl
  | mem a =>
    have hbytes : ∀ b ∈ [a, a + 1#16], s.mem.read b = m.read b := h ⟨.read, a⟩ (List.mem_singleton.2 rfl) nofun
    exact Memory.readWord_congr (hbytes _ (by simp)).symm (hbytes _ (by simp)).symm

/-- A store to an operand's location writes the same bytes in both memories, and the same registers. -/
theorem store_setMem (o : Operand) (v : Word) {s : State} {m : Memory} (hs : s.mem.wf = true) (hm : m.wf = true) :
    ∃ m', store (evalOperand o s).1 v ((evalOperand o s).2.setMem m) =
        (store (evalOperand o s).1 v (evalOperand o s).2).setMem m' ∧
      AgreeOnWrites (writeAccess o s) (store (evalOperand o s).1 v (evalOperand o s).2).mem m' := by
  unfold writeAccess
  cases (evalOperand o s).1 with
  | reg r => exact ⟨m, rfl, nofun⟩
  | mem a =>
    refine ⟨m.writeWord a v, rfl, fun x hx _ b hb => ?_⟩
    have hx := List.mem_singleton.1 hx
    subst hx
    simp only [store_mem, State.setMem_mem, evalOperand_mem]
    rcases List.mem_pair.1 hb with rfl | rfl
    · rw [Memory.read_writeWord_low _ _ _ hs, Memory.read_writeWord_low _ _ _ hm]
    · rw [Memory.read_writeWord_high _ _ _ hs, Memory.read_writeWord_high _ _ _ hm]

theorem loadOperand_setMem {o : Operand} {s : State} {m : Memory} (h : AgreeOnReads (readAccess o s) s.mem m) :
    load (evalOperand o s).1 ((evalOperand o s).2.setMem m) = load (evalOperand o s).1 (evalOperand o s).2 :=
  load_setMem (by rwa [evalOperand_mem])

theorem evalSource_setMem {src : Operand} {s : State} {m : Memory} (h : AgreeOnReads (readAccess src s) s.mem m) :
    evalSource src (s.setMem m) = ((evalSource src s).1, (evalSource src s).2.setMem m) := by
  simp only [evalSource, evalOperand_setMem, loadOperand_setMem h]

theorem setFlags_setMem (n : Int) (s : State) (m : Memory) :
    setFlags n (s.setMem m) = (setFlags n s).setMem m := rfl

theorem setPc_setMem (s : State) (t : Word) (m : Memory) : (s.setMem m).setPc t = (s.setPc t).setMem m := rfl

/-- Where an instruction's operands lie is decided by the registers and the flags. -/
theorem Shape.accesses_setMem (sh : Shape) (s : State) (m : Memory) : sh.accesses (s.setMem m) = sh.accesses s := by
  have hread : ∀ o u, readAccess o (State.setMem u m) = readAccess o u := fun o u => by
    rw [readAccess, evalOperand_setMem, readAccess]
  have hwrite : ∀ o u, writeAccess o (State.setMem u m) = writeAccess o u := fun o u => by
    rw [writeAccess, evalOperand_setMem, writeAccess]
  cases sh <;>
    simp only [Shape.accesses, modifyAccess, evalSource_snd, evalOperand_setMem, hread, hwrite, State.setMem_z,
      State.setMem_c]

/-- A shape run in two canonical memories that agree where it reads ends in states that differ in memory alone, and
not where it writes. -/
theorem Shape.run_setMem (sh : Shape) {s : State} {m : Memory} (hs : s.mem.wf = true) (hm : m.wf = true)
    (h : AgreeOnReads (sh.accesses s) s.mem m) :
    ∃ m', sh.run (s.setMem m) = (sh.run s).setMem m' ∧ AgreeOnWrites (sh.accesses s) (sh.run s).mem m' := by
  have hsrc : ∀ src, (evalSource src s).2.mem.wf = true := fun src => by rwa [evalSource_mem]
  cases sh with
  | modify f o =>
    obtain ⟨hread, -⟩ := agreeOnReads_append.1 h
    obtain ⟨m', hstore, hagree⟩ := store_setMem o (wrap16 (f (load (evalOperand o s).1 (evalOperand o s).2))) hs hm
    refine ⟨m', ?_, agreeOnWrites_append.2 ⟨agreeOnWrites_readAccess o s _ _, hagree⟩⟩
    simp only [Shape.run, modifyOperand, evalOperand_setMem, loadOperand_setMem hread, hstore, setFlags_setMem]
  | move cond dst src =>
    obtain ⟨hread, -⟩ := agreeOnReads_append.1 h
    simp only [Shape.run, Shape.accesses, State.setMem_z, State.setMem_c]
    cases cond s.z s.c with
    | false =>
      exact ⟨m, by simp only [moveIf_false, evalSource_setMem hread],
        agreeOnWrites_append.2 ⟨agreeOnWrites_readAccess src s _ _, nofun⟩⟩
    | true =>
      obtain ⟨m', hstore, hagree⟩ := store_setMem dst (evalSource src s).1 (hsrc src) hm
      refine ⟨m', ?_, agreeOnWrites_append.2 ⟨agreeOnWrites_readAccess src s _ _, hagree⟩⟩
      simp only [moveIf_true, moveInto, evalSource_setMem hread, evalOperand_setMem, hstore, setFlags_setMem]
  | call dst src =>
    obtain ⟨hread, -⟩ := agreeOnReads_append.1 h
    obtain ⟨m', hstore, hagree⟩ := store_setMem dst (evalOperand dst (evalSource src s).2).2.pc (hsrc src) hm
    refine ⟨m', ?_, agreeOnWrites_append.2 ⟨agreeOnWrites_readAccess src s _ _, hagree⟩⟩
    simp only [Shape.run, callInto, evalSource_setMem hread, evalOperand_setMem, State.setMem_pc, hstore,
      setPc_setMem, setFlags_setMem]
  | compare g dst src =>
    obtain ⟨hread, hdst⟩ := agreeOnReads_append.1 h
    rw [← evalSource_mem src s] at hdst
    refine ⟨m, ?_, agreeOnWrites_append.2 ⟨agreeOnWrites_readAccess src s _ _, agreeOnWrites_readAccess dst _ _ _⟩⟩
    simp only [Shape.run, compareOperands, evalSource_setMem hread, evalOperand_setMem, loadOperand_setMem hdst,
      setFlags_setMem]
  | combine g dst src =>
    obtain ⟨hread, hrest⟩ := agreeOnReads_append.1 h
    obtain ⟨hdst, -⟩ := agreeOnReads_append.1 hrest
    rw [← evalSource_mem src s] at hdst
    obtain ⟨m', hstore, hagree⟩ := store_setMem dst
      (wrap16 (g (load (evalOperand dst (evalSource src s).2).1 (evalOperand dst (evalSource src s).2).2)
        (evalSource src s).1)) (hsrc src) hm
    refine ⟨m', ?_, agreeOnWrites_append.2 ⟨agreeOnWrites_readAccess src s _ _,
      agreeOnWrites_append.2 ⟨agreeOnWrites_readAccess dst _ _ _, hagree⟩⟩⟩
    simp only [Shape.run, combineOperands, evalSource_setMem hread, evalOperand_setMem, loadOperand_setMem hdst,
      hstore, setFlags_setMem]

/-- What was fetched, in a state with another memory. -/
def Fetched.setMem : Fetched → Memory → Fetched
  | .instr i s, m => .instr i (s.setMem m)
  | .unassigned b0 s, m => .unassigned b0 (s.setMem m)

/-- Whatever is fetched, the byte at `x[7]` is. -/
theorem read_pc_of_agreeOnReads {s : State} {m : Memory} (h : AgreeOnReads (fetchAccesses s) s.mem m) :
    m.read s.pc = s.mem.read s.pc := by
  have hfirst : ⟨.fetch, s.pc⟩ ∈ fetchAccesses s := by
    rw [fetchAccesses]
    split
    · split <;> exact List.mem_cons_self
    · exact List.mem_cons_self
  exact (h _ hfirst nofun s.pc (List.mem_singleton.2 rfl)).symm

/-- The same instruction is fetched from a memory that agrees on the bytes fetched. -/
theorem fetchInstr_setMem {s : State} {m : Memory} (h : AgreeOnReads (fetchAccesses s) s.mem m) :
    fetchInstr (s.setMem m) = (fetchInstr s).setMem m := by
  have h0 := read_pc_of_agreeOnReads h
  have hfirst : (fetch8 (s.setMem m)).1 = s.mem.read s.pc := h0
  rcases fetchInstr_cases s with ⟨i, hS, hi, hf⟩ | ⟨finish, hD, hd, hf⟩ | ⟨hD, hnone, hf⟩
  · rw [hf, fetchInstr_formatS (by rwa [hfirst]) (by rwa [hfirst])]
    rfl
  · have hsecond : ⟨.fetch, s.pc + 1#16⟩ ∈ fetchAccesses s := by
      simp only [fetchAccesses, hf, hD, if_true, List.mem_cons, true_or, or_true]
    have h1 := h _ hsecond nofun (s.pc + 1#16) (List.mem_singleton.2 rfl)
    rw [hf, fetchInstr_formatD (by rwa [hfirst]) (by rwa [hfirst]), h1]
    rfl
  · have hge : 0xEC#8 ≤ (s.setMem m).mem.read (s.setMem m).pc := by
      rw [State.setMem_mem, State.setMem_pc, h0]
      exact (unassigned_iff _).1 ⟨hD, hnone⟩
    rw [hf, fetchInstr_unassigned hge, State.setMem_mem, State.setMem_pc, h0]
    rfl

theorem fetchAccesses_setMem {s : State} {m : Memory} (h : AgreeOnReads (fetchAccesses s) s.mem m) :
    fetchAccesses (s.setMem m) = fetchAccesses s := by
  rw [fetchAccesses, fetchInstr_setMem h, State.setMem_mem, State.setMem_pc, read_pc_of_agreeOnReads h, fetchAccesses]
  cases fetchInstr s <;> rfl

/-- No fetch is a write. -/
theorem agreeOnWrites_fetchAccesses (s : State) (m m' : Memory) : AgreeOnWrites (fetchAccesses s) m m' := by
  have hkind : ∀ x ∈ fetchAccesses s, x.kind = .fetch := by
    rw [fetchAccesses]
    split
    · split <;> simp
    · simp
  intro x hx hw
  rw [hkind x hx] at hw
  cases hw

/-- The accesses of a step in another memory that agrees on what the step fetches and reads. -/
theorem stepAccesses_setMem {s : State} {m : Memory} (h : AgreeOnReads (fetchAccesses s) s.mem m) :
    stepAccesses (s.setMem m) = stepAccesses s := by
  rw [stepAccesses, fetchInstr_setMem h, fetchAccesses_setMem h, stepAccesses]
  cases fetchInstr s with
  | unassigned b0 u => rfl
  | instr i u => simp only [Fetched.setMem, ← accesses_shapeOf, Shape.accesses_setMem]

/-- Settles O57: the same is fetched, and then a shape runs in two memories that agree where it reads. -/
theorem stepDependsOnlyOnItsAccesses : Obligations.StepDependsOnlyOnItsAccesses := by
  intro s s' hwf hwf' hregs hz hc hagree
  obtain ⟨m, rfl⟩ : ∃ m, s' = s.setMem m := ⟨s'.mem, by cases s; cases s'; cases hregs; cases hz; cases hc; rfl⟩
  have hwfm : m.wf = true := hwf'
  have hagree : AgreeOnReads (stepAccesses s) s.mem m := hagree
  cases hf : fetchInstr s with
  | unassigned b0 u =>
    have hfetch : AgreeOnReads (fetchAccesses s) s.mem m := by
      simpa only [stepAccesses, hf] using hagree
    refine ⟨stepAccesses_setMem hfetch, .inl ⟨_, by rw [step, hf]; rfl, ?_⟩⟩
    rw [step, fetchInstr_setMem hfetch, hf]
    rfl
  | instr i u =>
    have hacc : stepAccesses s = fetchAccesses s ++ (shapeOf i).accesses u := by
      rw [stepAccesses_of_fetchInstr hf, accesses_shapeOf]
    rw [hacc] at hagree ⊢
    obtain ⟨hfetch, hreads⟩ := agreeOnReads_append.1 hagree
    rw [← fetchInstr_mem hf] at hwf hreads
    obtain ⟨m', hrun, hwrites⟩ := Shape.run_setMem (shapeOf i) hwf hwfm hreads
    have hf' : fetchInstr (s.setMem m) = .instr i (u.setMem m) := by rw [fetchInstr_setMem hfetch, hf]; rfl
    refine ⟨by rw [stepAccesses_setMem hfetch, hacc], .inr ⟨(shapeOf i).run u, ((shapeOf i).run u).setMem m',
      ?_, ?_, rfl, rfl, rfl, agreeOnWrites_append.2 ⟨agreeOnWrites_fetchAccesses s _ _, hwrites⟩⟩⟩
    · rw [step_of_fetchInstr hf, exec_eq_run]
    · rw [step_of_fetchInstr hf', exec_eq_run, hrun]

end Sys2Proof.Machine

namespace Sys2Proof.Machine

/-! ## The step of a smaller memory (R32) -/

/-- R120, R122: no step is refused for want of a meaning. -/
theorem step_ne_refused (s : State) (r : Refusal) : step s ≠ .refused r := by
  rcases step_cases s with ⟨i, t, -, hstep⟩ | ⟨-, -, hstep⟩
  · rw [hstep, exec_eq_run]
    nofun
  · rw [hstep]
    nofun

theorem stepIn_of_inside {memBytes : Nat} {s : State} (h : ∀ x ∈ stepAccesses s, ∀ a ∈ x.bytes, a.toNat < memBytes) :
    stepIn memBytes s = step s := by
  rw [stepIn, firstOutside_none.2 h]

/-- No address lies outside the whole memory. -/
theorem stepIn_whole (s : State) : stepIn 65536 s = step s :=
  stepIn_of_inside fun _ _ a _ => a.isLt

/-- A guarded step is refused for a byte outside and for nothing else. -/
theorem stepIn_refused {memBytes : Nat} {s : State} {r : Refusal} (h : stepIn memBytes s = .refused r) :
    ∃ a, memBytes ≤ a.toNat ∧ r = .outsideMemory memBytes a := by
  rcases stepIn_cases memBytes s with ⟨a, hout, hin⟩ | ⟨-, hin⟩
  · rw [hin] at h
    cases h
    exact ⟨a, (firstOutside_some hout).1, rfl⟩
  · exact absurd (hin.symm.trans h) (step_ne_refused s r)

/-! ## One step of a run (R143) -/

section
variable {memBytes : Nat} {halt : State → Bool} {s : State}

theorem runUntil_of_halt (h : halt s = true) (n : Nat) : runUntil memBytes halt n s = .ended s := by
  cases n <;> rw [runUntil, if_pos h]

theorem runUntil_zero (h : halt s = false) : runUntil memBytes halt 0 s = .running s := by
  simp only [runUntil, h, Bool.false_eq_true, if_false]

theorem runUntil_succ_next (h : halt s = false) {t : State} (hstep : stepIn memBytes s = .next t) (n : Nat) :
    runUntil memBytes halt (n + 1) s = runUntil memBytes halt n t := by
  simp only [runUntil, h, Bool.false_eq_true, if_false, hstep]

theorem runUntil_succ_fault (h : halt s = false) {r : Fault} (hstep : stepIn memBytes s = .fault r) (n : Nat) :
    runUntil memBytes halt (n + 1) s = .faulted r := by
  simp only [runUntil, h, Bool.false_eq_true, if_false, hstep]

theorem runUntil_succ_refused (h : halt s = false) {r : Refusal} (hstep : stepIn memBytes s = .refused r) (n : Nat) :
    runUntil memBytes halt (n + 1) s = .refused r := by
  simp only [runUntil, h, Bool.false_eq_true, if_false, hstep]

/-- A run that does not run on stands where it is, however many more steps are allowed. -/
theorem runUntil_add {n : Nat} {r : RunResult} (h : runUntil memBytes halt n s = r) (hr : ∀ u, r ≠ .running u)
    (k : Nat) : runUntil memBytes halt (n + k) s = r := by
  induction n generalizing s with
  | zero =>
    cases hh : halt s with
    | true => rw [runUntil_of_halt hh, ← h, runUntil_of_halt hh]
    | false => exact absurd (h.symm.trans (runUntil_zero hh)) (hr s)
  | succ n ih =>
    rw [Nat.add_right_comm]
    cases hh : halt s with
    | true => rw [runUntil_of_halt hh, ← h, runUntil_of_halt hh]
    | false =>
      cases hs : stepIn memBytes s with
      | next t =>
        rw [runUntil_succ_next hh hs] at h ⊢
        exact ih h
      | fault f => rw [runUntil_succ_fault hh hs, ← h, runUntil_succ_fault hh hs]
      | refused f => rw [runUntil_succ_refused hh hs, ← h, runUntil_succ_refused hh hs]

/-- Two numbers of steps after which a run does not run on find it in the same place. -/
theorem runUntil_unique {n k : Nat} {r r' : RunResult} (hn : runUntil memBytes halt n s = r)
    (hk : runUntil memBytes halt k s = r') (hr : ∀ u, r ≠ .running u) (hr' : ∀ u, r' ≠ .running u) : r = r' := by
  rw [← runUntil_add hn hr k, ← runUntil_add hk hr' n, Nat.add_comm]

theorem halt_of_runUntil_ended {n : Nat} {t : State} (h : runUntil memBytes halt n s = .ended t) : halt t = true := by
  induction n generalizing s with
  | zero =>
    cases hh : halt s with
    | true => rw [runUntil_of_halt hh] at h; cases h; exact hh
    | false => rw [runUntil_zero hh] at h; cases h
  | succ n ih =>
    cases hh : halt s with
    | true => rw [runUntil_of_halt hh] at h; cases h; exact hh
    | false =>
      cases hs : stepIn memBytes s with
      | next u => rw [runUntil_succ_next hh hs] at h; exact ih h
      | fault r => rw [runUntil_succ_fault hh hs] at h; cases h
      | refused r => rw [runUntil_succ_refused hh hs] at h; cases h

/-- R32: a run is refused for a byte outside and for nothing else. -/
theorem runUntil_refused {n : Nat} {r : Refusal} (h : runUntil memBytes halt n s = .refused r) :
    ∃ a, memBytes ≤ a.toNat ∧ r = .outsideMemory memBytes a := by
  induction n generalizing s with
  | zero =>
    cases hh : halt s with
    | true => rw [runUntil_of_halt hh] at h; cases h
    | false => rw [runUntil_zero hh] at h; cases h
  | succ n ih =>
    cases hh : halt s with
    | true => rw [runUntil_of_halt hh] at h; cases h
    | false =>
      cases hs : stepIn memBytes s with
      | next u => rw [runUntil_succ_next hh hs] at h; exact ih h
      | fault r' => rw [runUntil_succ_fault hh hs] at h; cases h
      | refused r' => rw [runUntil_succ_refused hh hs] at h; cases h; exact stepIn_refused hs

/-- R32: with less memory, a run is the whole memory's run until it is refused. -/
theorem runUntil_whole_or_refused (memBytes : Nat) (halt : State → Bool) (n : Nat) (s : State) :
    runUntil memBytes halt n s = runUntil 65536 halt n s ∨
      ∃ a, memBytes ≤ a.toNat ∧ runUntil memBytes halt n s = .refused (.outsideMemory memBytes a) := by
  induction n generalizing s with
  | zero => exact .inl rfl
  | succ n ih =>
    cases hh : halt s with
    | true => exact .inl (by rw [runUntil_of_halt hh, runUntil_of_halt hh])
    | false =>
      rcases stepIn_cases memBytes s with ⟨a, hout, hin⟩ | ⟨-, hin⟩
      · exact .inr ⟨a, (firstOutside_some hout).1, runUntil_succ_refused hh hin n⟩
      · rw [← stepIn_whole s] at hin
        cases hs : stepIn 65536 s with
        | next t =>
          rw [runUntil_succ_next hh (hin.trans hs), runUntil_succ_next hh hs]
          exact ih t
        | fault r => exact .inl (by rw [runUntil_succ_fault hh (hin.trans hs), runUntil_succ_fault hh hs])
        | refused r => exact .inl (by rw [runUntil_succ_refused hh (hin.trans hs), runUntil_succ_refused hh hs])

/-- A run that diverges never stands still. -/
theorem not_diverges {n : Nat} {r : RunResult} (h : runUntil memBytes halt n s = r) (hr : ∀ u, r ≠ .running u) :
    ¬ Diverges memBytes halt s :=
  fun hd => (hd n).elim fun u hu => hr u (h.symm.trans hu)

end

/-- Settles O58: the search for a byte outside decides the step, and step by step the run. -/
theorem smallMemoryRefuses : Obligations.SmallMemoryRefuses := by
  intro memBytes s
  refine ⟨stepIn_whole s, stepIn_of_inside, fun ⟨x, hx, a, ha, hout⟩ => ?_,
    fun halt n => runUntil_whole_or_refused memBytes halt n s⟩
  rcases stepIn_cases memBytes s with ⟨b, hfound, hin⟩ | ⟨hnone, -⟩
  · obtain ⟨hb, y, hy, hmem⟩ := firstOutside_some hfound
    exact ⟨y, hy, b, hmem, hb, hin⟩
  · exact absurd (firstOutside_none.1 hnone x hx a ha) (Nat.not_lt.2 hout)

/-- Settles O59: a run that does not diverge stops somewhere, and only in one place. -/
theorem runHasExactlyOneShape : Obligations.RunHasExactlyOneShape := by
  intro memBytes halt s
  refine ⟨?someShape, ?endsFaults, ?endsRefuses, ?endsDiverges, ?faultsRefuses, ?faultsDiverges, ?refusesDiverges,
    ?whole, fun n r h => runUntil_refused h⟩
  case someShape =>
    by_cases hd : Diverges memBytes halt s
    · exact .inr (.inr (.inr hd))
    · obtain ⟨n, hn⟩ := not_forall.1 hd
      cases h : runUntil memBytes halt n s with
      | ended t => exact .inl ⟨n, t, h⟩
      | faulted r => exact .inr (.inl ⟨n, r, h⟩)
      | refused r => exact .inr (.inr (.inl ⟨n, r, h⟩))
      | running t => exact absurd ⟨t, h⟩ hn
  case endsFaults => exact fun ⟨⟨_, _, hn⟩, _, _, hk⟩ => nomatch runUntil_unique hn hk nofun nofun
  case endsRefuses => exact fun ⟨⟨_, _, hn⟩, _, _, hk⟩ => nomatch runUntil_unique hn hk nofun nofun
  case faultsRefuses => exact fun ⟨⟨_, _, hn⟩, _, _, hk⟩ => nomatch runUntil_unique hn hk nofun nofun
  case endsDiverges => exact fun ⟨⟨_, _, hn⟩, hd⟩ => not_diverges hn nofun hd
  case faultsDiverges => exact fun ⟨⟨_, _, hn⟩, hd⟩ => not_diverges hn nofun hd
  case refusesDiverges => exact fun ⟨⟨_, _, hn⟩, hd⟩ => not_diverges hn nofun hd
  case whole =>
    rintro hlarge ⟨n, r, h⟩
    obtain ⟨a, ha, -⟩ := runUntil_refused h
    exact absurd (hlarge.trans ha) (Nat.not_le.2 a.isLt)

/-- Settles O60: the first clauses are one step of a run, the last `runUntil_add`. -/
theorem haltIsTestedBeforeEachStep : Obligations.HaltIsTestedBeforeEachStep := fun _ _ n _ _ =>
  ⟨fun h => runUntil_of_halt h n, runUntil_zero, fun h hs => runUntil_succ_next h hs n,
    fun _ h hs => runUntil_succ_fault h hs n, fun _ h hs => runUntil_succ_refused h hs n,
    fun h => ⟨halt_of_runUntil_ended h, runUntil_add h nofun⟩⟩

end Sys2Proof.Machine
